-- ==== Sys2Proof/Word.lean ====
section
/-!
DEFINITION. The words of the CashaddrTools arithmetic block: the 32-bit register word and the widths the spec names.
Every value of the block is an unsigned bit vector or a natural number (spec/00_scope.md R11); bit 0 is the least
significant bit (R10).
-/
namespace Sys2Proof

/-- A 32-bit register or command word (spec/10_state.md section 3, spec/30_encoding.md R85). -/
abbrev Word := BitVec 32

/-- An 8-bit byte. -/
abbrev Byte := BitVec 8

/-- A 5-bit symbol, `0..31` (spec/00_scope.md glossary). -/
abbrev Sym := BitVec 5

/-- A 40-bit polymod value (spec/00_scope.md R6). -/
abbrev Acc := BitVec 40

/-- The 12-bit packer shift register's value (spec/00_scope.md R7). -/
abbrev Shift := BitVec 12

end Sys2Proof
end

