-- ==== Sys2Proof/Config.lean ====
section
/-!
DEFINITION. What this implementation fixes (spec/00_scope.md section 3, spec/10_state.md R37, R38) and the one source of
free values (spec/00_scope.md R9, spec/93_implementation_defined.md U1, U5).
-/
namespace Sys2Proof.Config

/-- The values the parameter `NB`, the dividend's width in bytes, may take: a multiple of 4 with `72 <= NB <= 128`
(spec/00_scope.md R4, spec/92_eei_decisions.md D4). The model takes `NB` as a field of State. -/
abbrev LegalNB (nb : Nat) : Prop := nb % 4 = 0 ∧ 72 ≤ nb ∧ nb ≤ 128

/-- The `NB` of this hardware (spec/00_scope.md R4). -/
abbrev nb : Nat := 72

/-- `PW`, the packer shift register's width (spec/00_scope.md R7). -/
abbrev pw : Nat := 12

/-- The ID register's constant (spec/00_scope.md R2, spec/10_state.md R37). -/
def idWord : Word := 0x43414231#32

/-- The CFG register's constant: `NB` in bits 7..0, `PW` in bits 15..8 (spec/10_state.md R38). -/
def cfgWord (nb : Nat) : Word := BitVec.ofNat 32 (nb + pw * 256)

/-- The size of the register window in bytes (spec/20_memory.md R61). -/
abbrev windowBytes : Nat := 256

/-- The `n`-th FREE DRAW: a 32-bit value on which nothing is known. It is what a host read returns where the spec leaves
the value open: a read while BUSY = 1 (spec/00_scope.md R9, U1, U15), a read while RST is asserted (U5), and a read
outside the window, whose value is the platform's (spec/20_memory.md R67). Log 4. -/
opaque freeDraw : Nat → Word

end Sys2Proof.Config
end

