-- ==== Sys2Proof/Syntax.lean ====
section
/-!
DEFINITION. The fifteen commands (spec/30_encoding.md R88), their opcodes and formats (R86), and the assembler's form of a
command with operands that have not been checked yet (R91).
-/
namespace Sys2Proof

/-- The MAP field of DIV.STEP (spec/30_encoding.md R90); the encoding 3 is illegal and has no constructor. -/
inductive DigitMap where
  /-- the remainder itself -/
  | raw
  /-- the remainder plus OFS, modulo 256 -/
  | ofs
  /-- the Base58 alphabet -/
  | b58
  deriving DecidableEq, Repr

/-- The packer direction PDIR and the DIR field of PKR.INIT (spec/10_state.md R29, spec/30_encoding.md R90). -/
inductive Dir where
  /-- 0: bytes in, symbols out -/
  | pack
  /-- 1: symbols in, bytes out -/
  | unpack
  deriving DecidableEq, Repr

/-- A command: one constructor per row of spec/opcode_table.json. Every operand has exactly the width its format gives it
(spec/30_encoding.md R86, R87), so every term is encodable. -/
inductive Instr where
  /-- SYS.NOP (R150) -/
  | sysNop
  /-- SYS.CLRERR (R151) -/
  | sysClrerr
  /-- SYS.SRST (R152) -/
  | sysSrst
  /-- DIV.CLR (R99) -/
  | divClr
  /-- DIV.SHB (R100) -/
  | divShb (imm8 : Byte)
  /-- DIV.STEP (R95): a divisor of 9 bits and a digit mapping -/
  | divStep (dvs : BitVec 9) (map : DigitMap)
  /-- PMD.INIT (R113) -/
  | pmdInit
  /-- PMD.SYM (R114) -/
  | pmdSym (imm5 : Sym)
  /-- PMD.CHR (R115) -/
  | pmdChr (imm8 : Byte)
  /-- PKR.INIT (R130) -/
  | pkrInit (dir : Dir)
  /-- PKR.PUT8 (R131) -/
  | pkrPut8 (imm8 : Byte)
  /-- PKR.PUT5 (R132) -/
  | pkrPut5 (imm5 : Sym)
  /-- PKR.GET (R134) -/
  | pkrGet
  /-- PKR.FLUSH (R135) -/
  | pkrFlush
  /-- PKR.END (R136) -/
  | pkrEnd
  deriving DecidableEq, Repr

/-- The fifteen assigned opcodes (spec/30_encoding.md R88). -/
inductive Opcode where
  | sysNop | sysClrerr | sysSrst
  | divClr | divShb | divStep
  | pmdInit | pmdSym | pmdChr
  | pkrInit | pkrPut8 | pkrPut5 | pkrGet | pkrFlush | pkrEnd
  deriving DecidableEq, Repr

/-- The five command formats (spec/30_encoding.md R86). -/
inductive Format where
  /-- no operand -/
  | n
  /-- a 5-bit immediate in bits 12..8 -/
  | i5
  /-- an 8-bit immediate in bits 15..8 -/
  | i8
  /-- DVS in bits 16..8 and MAP in bits 19..18 -/
  | d
  /-- DIR in bit 8 -/
  | m
  deriving DecidableEq, Repr

/-- The opcode of a command. -/
def Instr.opcode : Instr → Opcode
  | .sysNop => .sysNop
  | .sysClrerr => .sysClrerr
  | .sysSrst => .sysSrst
  | .divClr => .divClr
  | .divShb _ => .divShb
  | .divStep _ _ => .divStep
  | .pmdInit => .pmdInit
  | .pmdSym _ => .pmdSym
  | .pmdChr _ => .pmdChr
  | .pkrInit _ => .pkrInit
  | .pkrPut8 _ => .pkrPut8
  | .pkrPut5 _ => .pkrPut5
  | .pkrGet => .pkrGet
  | .pkrFlush => .pkrFlush
  | .pkrEnd => .pkrEnd

/-- A command as the assembler reads it (spec/30_encoding.md R91), before its operands' ranges are checked. The operand type
`α` is `Nat` once the numbers are known, and an expression over host variables where the host still has to compute them
(R92). MAP and DIR are spelled by name, so they need no check. -/
inductive AsmCmd (α : Type) where
  | sysNop | sysClrerr | sysSrst
  | divClr | divShb (b : α) | divStep (d : α) (m : DigitMap)
  | pmdInit | pmdSym (s : α) | pmdChr (a : α)
  | pkrInit (dir : Dir) | pkrPut8 (b : α) | pkrPut5 (s : α) | pkrGet | pkrFlush | pkrEnd
  deriving DecidableEq, Repr

/-- The pseudo-instructions that stand for commands (spec/30_encoding.md R93); `chkerr` is a host statement. -/
inductive Pseudo (α : Type) where
  /-- `pmd.sep` -/
  | pmdSep
  /-- `pmd.pad8` -/
  | pmdPad8
  /-- `pmd.prefix "s"`, the characters' codes in order -/
  | pmdPrefix (codes : List α)
  /-- `div.load b0, ..., b(n-1)` -/
  | divLoad (bytes : List α)
  /-- `div.b58` -/
  | divB58
  deriving DecidableEq, Repr

end Sys2Proof
end

