-- ==== Sys2Proof/WellFormed.lean ====
section
/-!
DEFINITION. The operand ranges the assembler checks (spec/30_encoding.md R91): "An assembler refuses an operand outside its
range rather than truncate it". A term of `Instr` has operands of exactly its format's widths and is well-formed by its type;
the checks stand where an operand is still a number.
-/
namespace Sys2Proof

/-- The ranges of spec/30_encoding.md R91. Divisors 0 and 257 to 511 are encodable; they fail when the command executes. -/
def AsmCmd.wellFormed : AsmCmd Nat → Bool
  | .divShb b => b < 256
  | .divStep d _ => d < 512
  | .pmdSym s => s < 32
  | .pmdChr a => a < 256
  | .pkrPut8 b => b < 256
  | .pkrPut5 s => s < 32
  | .sysNop | .sysClrerr | .sysSrst | .divClr | .pmdInit | .pkrInit _ | .pkrGet | .pkrFlush | .pkrEnd => true

/-- A command as the assembler writes it. -/
def Instr.toAsm : Instr → AsmCmd Nat
  | .sysNop => .sysNop
  | .sysClrerr => .sysClrerr
  | .sysSrst => .sysSrst
  | .divClr => .divClr
  | .divShb b => .divShb b.toNat
  | .divStep d m => .divStep d.toNat m
  | .pmdInit => .pmdInit
  | .pmdSym s => .pmdSym s.toNat
  | .pmdChr a => .pmdChr a.toNat
  | .pkrInit d => .pkrInit d
  | .pkrPut8 b => .pkrPut8 b.toNat
  | .pkrPut5 s => .pkrPut5 s.toNat
  | .pkrGet => .pkrGet
  | .pkrFlush => .pkrFlush
  | .pkrEnd => .pkrEnd

/-- An instruction is well-formed when its assembler form passes the range checks; by the types of the operands every
instruction is. -/
def Instr.wellFormed (i : Instr) : Bool := i.toAsm.wellFormed

/-- The pseudo-instructions' checks (spec/30_encoding.md R93): `div.load` takes at most `NB` bytes, and every operand is in
its command's range. `n <= NB` admits `n = 0`, on which the spec says nothing more: `div.load` with no bytes is accepted and is
`div.clr` alone (DESIGN CHOICE, log 13). -/
def Pseudo.wellFormed (nb : Nat) : Pseudo Nat → Bool
  | .pmdPrefix codes => codes.all (· < 256)
  | .divLoad bytes => bytes.length ≤ nb && bytes.all (· < 256)
  | .pmdSep | .pmdPad8 | .divB58 => true

end Sys2Proof
end

