-- ==== Sys2Proof/Decode.lean ====
section
/-!
DEFINITION. The command decoder (spec/30_encoding.md R88, R89): total on all `2^32` words, each word either one command or
illegal for a named reason; and the encoder written from the same tables (R86, R88, R91).
-/
namespace Sys2Proof

/-- The opcode number of each command (spec/30_encoding.md R88). -/
def Opcode.code : Opcode → Byte
  | .sysNop => 0x00#8
  | .sysClrerr => 0x01#8
  | .sysSrst => 0x02#8
  | .divClr => 0x10#8
  | .divShb => 0x11#8
  | .divStep => 0x12#8
  | .pmdInit => 0x20#8
  | .pmdSym => 0x21#8
  | .pmdChr => 0x22#8
  | .pkrInit => 0x30#8
  | .pkrPut8 => 0x31#8
  | .pkrPut5 => 0x32#8
  | .pkrGet => 0x33#8
  | .pkrFlush => 0x34#8
  | .pkrEnd => 0x35#8

/-- Every opcode, in the order of the table of spec/30_encoding.md R88. -/
def Opcode.all : List Opcode :=
  [.sysNop, .sysClrerr, .sysSrst, .divClr, .divShb, .divStep, .pmdInit, .pmdSym, .pmdChr, .pkrInit, .pkrPut8, .pkrPut5,
   .pkrGet, .pkrFlush, .pkrEnd]

/-- The opcode a byte is assigned to, if any: the other 241 values are illegal (spec/30_encoding.md R89). -/
def Opcode.ofByte (b : Byte) : Option Opcode := Opcode.all.find? (fun o => o.code == b)

/-- The format of each command (spec/30_encoding.md R88). -/
def Opcode.format : Opcode → Format
  | .sysNop | .sysClrerr | .sysSrst | .divClr | .pmdInit | .pkrGet | .pkrFlush | .pkrEnd => .n
  | .pmdSym | .pkrPut5 => .i5
  | .divShb | .pmdChr | .pkrPut8 => .i8
  | .divStep => .d
  | .pkrInit => .m

/-- The bits that must be zero in each format (spec/30_encoding.md R86). -/
def Format.reservedMask : Format → Word
  | .n => 0xFFFFFF00#32
  | .i5 => 0xFFFFE000#32
  | .i8 => 0xFFFF0000#32
  | .d => 0xFFF20000#32
  | .m => 0xFFFFFE00#32

/-- `w[7:0]`, the opcode field (spec/30_encoding.md R86). -/
def opcField (w : Word) : Byte := w.extractLsb' 0 8

/-- `IMM5 = w[12:8]` (spec/30_encoding.md R86). -/
def imm5Field (w : Word) : Sym := w.extractLsb' 8 5

/-- `IMM8 = w[15:8]` (spec/30_encoding.md R86). -/
def imm8Field (w : Word) : Byte := w.extractLsb' 8 8

/-- `DVS = w[16:8]` (spec/30_encoding.md R86). -/
def dvsField (w : Word) : BitVec 9 := w.extractLsb' 8 9

/-- `MAP = w[19:18]` (spec/30_encoding.md R86). -/
def mapField (w : Word) : BitVec 2 := w.extractLsb' 18 2

/-- `DIR = w[8]` (spec/30_encoding.md R86). -/
def dirField (w : Word) : BitVec 1 := w.extractLsb' 8 1

/-- The MAP field's encodings (spec/30_encoding.md R90). -/
def DigitMap.code : DigitMap → BitVec 2
  | .raw => 0#2
  | .ofs => 1#2
  | .b58 => 2#2

/-- The mapping a MAP field selects: 3 is illegal (spec/30_encoding.md R88, R90). -/
def DigitMap.ofField (m : BitVec 2) : Option DigitMap :=
  match m.toNat with
  | 0 => some .raw
  | 1 => some .ofs
  | 2 => some .b58
  | _ => none

/-- The DIR bit (spec/30_encoding.md R90, spec/10_state.md R29). -/
def Dir.code : Dir → BitVec 1
  | .pack => 0#1
  | .unpack => 1#1

/-- The direction a DIR bit selects (spec/30_encoding.md R90). -/
def Dir.ofField (d : BitVec 1) : Dir := if d = 0#1 then .pack else .unpack

/-- Why a word is no command; each of them is completed as ILLEGAL_CMD (spec/30_encoding.md R88). -/
inductive DecodeError where
  /-- condition (a) of R88 fails: the opcode is one of the 241 unassigned ones (R89) -/
  | unassignedOpcode
  /-- condition (b) of R88 fails: a reserved bit of the format is set -/
  | reservedBitSet
  /-- condition (c) of R88 fails: MAP = 3 in format D -/
  | illegalMap
  deriving DecidableEq, Repr

/-- The command of an assigned opcode, its operands taken from the format's fields (spec/30_encoding.md R86, R87, R88(c)). -/
def decodeFields (o : Opcode) (w : Word) : Except DecodeError Instr :=
  match o with
  | .sysNop => .ok .sysNop
  | .sysClrerr => .ok .sysClrerr
  | .sysSrst => .ok .sysSrst
  | .divClr => .ok .divClr
  | .divShb => .ok (.divShb (imm8Field w))
  | .divStep =>
    match DigitMap.ofField (mapField w) with
    | some m => .ok (.divStep (dvsField w) m)
    | none => .error .illegalMap
  | .pmdInit => .ok .pmdInit
  | .pmdSym => .ok (.pmdSym (imm5Field w))
  | .pmdChr => .ok (.pmdChr (imm8Field w))
  | .pkrInit => .ok (.pkrInit (Dir.ofField (dirField w)))
  | .pkrPut8 => .ok (.pkrPut8 (imm8Field w))
  | .pkrPut5 => .ok (.pkrPut5 (imm5Field w))
  | .pkrGet => .ok .pkrGet
  | .pkrFlush => .ok .pkrFlush
  | .pkrEnd => .ok .pkrEnd

/-- `decode(w)` (spec/30_encoding.md R88): total, every word one command or illegal by name. -/
def decode (w : Word) : Except DecodeError Instr :=
  match Opcode.ofByte (opcField w) with
  | none => .error .unassignedOpcode
  | some o => if w &&& o.format.reservedMask = 0#32 then decodeFields o w else .error .reservedBitSet

/-- The operand bits of a command in its word (spec/30_encoding.md R86). -/
def operandBits : Instr → Word
  | .divShb b => b.setWidth 32 <<< 8
  | .divStep d m => (d.setWidth 32 <<< 8) ||| (m.code.setWidth 32 <<< 18)
  | .pmdSym s => s.setWidth 32 <<< 8
  | .pmdChr a => a.setWidth 32 <<< 8
  | .pkrInit d => d.code.setWidth 32 <<< 8
  | .pkrPut8 b => b.setWidth 32 <<< 8
  | .pkrPut5 s => s.setWidth 32 <<< 8
  | .sysNop | .sysClrerr | .sysSrst | .divClr | .pmdInit | .pkrGet | .pkrFlush | .pkrEnd => 0#32

/-- The command word of a command (spec/30_encoding.md R86, R91). -/
def encode (i : Instr) : Word := i.opcode.code.setWidth 32 ||| operandBits i

/-- The instruction the decoder reads from a word given as a number, bit 0 its least significant bit; every bit above `nbits`
is 0. A command is one 32-bit bus write (spec/30_encoding.md R85), so no byte order enters. -/
def decodeTableWord (nbits w : Nat) : Option Instr :=
  match decode (BitVec.ofNat 32 (w % 2 ^ nbits)) with
  | .ok i => some i
  | .error _ => none

end Sys2Proof
end

