-- ==== Sys2Proof/Machine/State.lean ====
section
/-!
DEFINITION. The state of the block and of its bus (spec/10_state.md section 2), the state after reset (R55,
spec/70_reset_and_hazards.md R196), the error codes (spec/60_exceptions.md R157), and the reasons a step can stop.
-/
namespace Sys2Proof.Machine

/-- The errors the block latches (spec/60_exceptions.md R157); the constructors' order is the codes' order, 1 to 10. -/
inductive ErrCode where
  /-- 1: unassigned opcode, reserved bit set, or MAP = 3 -/
  | illegalCmd
  /-- 2: DIV.STEP with DVS = 0 -/
  | divByZero
  /-- 3: DIV.STEP with DVS > 256, or MAP = b58 with DVS > 58 -/
  | unsupportedBase
  /-- 4: DIV.SHB with the top byte of DVD not zero -/
  | divOverflow
  /-- 5: a PKR command not valid in the current direction -/
  | pkrMode
  /-- 6: PKR.GET with fewer bits held than the output width -/
  | pkrUnderflow
  /-- 7: the input would exceed 12 bits, or a whole symbol is still held at PKR.FLUSH -/
  | pkrOverflow
  /-- 8: PKR.END with left-over bits that are not all zero -/
  | invalidPadding
  /-- 9: PKR.END with more than 4 left-over bits -/
  | invalidLength
  /-- 10: a host write to CMD, CTRL or a DVD word while BUSY = 1 -/
  | overrun
  deriving DecidableEq, Repr

/-- What happens next on the bus, on the reset input, or in the block. Addresses are the host's (spec/20_memory.md R61);
`size` is the access's width in bytes, so that an access the spec leaves unspecified (R63) can be written down and refused. -/
inductive Event where
  /-- `MemRead`: the host reads `size` bytes at `addr` (spec/20_memory.md R64) -/
  | read (addr size : Nat)
  /-- `MemWrite`: the host writes `v` at `addr` (spec/20_memory.md R65) -/
  | write (addr size : Nat) (v : Word)
  /-- the block's turn: it completes the command in PEND, if there is one (spec/20_memory.md R72) -/
  | blockTurn
  /-- RST is asserted (spec/70_reset_and_hazards.md R195) -/
  | rstAssert
  /-- RST is released (spec/70_reset_and_hazards.md R196) -/
  | rstRelease
  deriving DecidableEq, Repr

/-- Every piece of state the spec gives the block (spec/10_state.md R22 to R34), the reset input
(spec/70_reset_and_hazards.md R195), and the model's own fields: the agenda, the values read, the count of free draws and the
parameters BASE and NB. -/
structure State where
  /-- DVD, the dividend/quotient register (R22), `8 * NB` bits, as the natural number it holds (spec/00_scope.md R11): its width
  depends on the field `nb`, and every step keeps it below `2^(8*NB)` (`Inv`, Sys2Proof/Safety.lean; log 12) -/
  dvd : Nat
  /-- REM, the last remainder (R23) -/
  rem : Byte
  /-- DIGIT, the last remainder digit (R24) -/
  digit : Byte
  /-- OFS, field CTRL[7:0] (R25, R39) -/
  ofs : Byte
  /-- C, the polymod accumulator (R26) -/
  c : Acc
  /-- PACC, the packer shift register (R27) -/
  pacc : Shift
  /-- PCNT, the number of valid bits in PACC (R28) -/
  pcnt : BitVec 4
  /-- PDIR, the packer direction (R29) -/
  pdir : Dir
  /-- POUT, the packer output (R30) -/
  pout : Byte
  /-- ERR, the error flag (R31) -/
  err : Bool
  /-- ERRCODE, the error code (R32) -/
  errcode : BitVec 4
  /-- BUSY (R33) -/
  busy : Bool
  /-- PEND, the accepted command word (R34) -/
  pend : Word
  /-- the reset input: asserted or not (spec/70_reset_and_hazards.md R195) -/
  rst : Bool
  /-- the model's own: what happens next, in order (log 1) -/
  agenda : List Event
  /-- the model's own: the values the host's reads returned, newest first (log 3) -/
  reads : List Word
  /-- the model's own: how many free draws have been made (log 4) -/
  draws : Nat
  /-- the parameter BASE: where the register window sits in the host's address space (spec/20_memory.md R61; log 5) -/
  base : Nat
  /-- the parameter NB: the dividend's width in bytes (spec/00_scope.md R4; log 12) -/
  nb : Nat
  deriving DecidableEq, Repr

/-- A fault: the model stops with an error. -/
inductive Fault where
  /-- A read of STATUS with BUSY = 0 and RST released would show an ERRCODE from 11 to 15. The spec says no such code is ever
  produced and gives the treatment "fault" (spec/60_exceptions.md R157, spec/93_implementation_defined.md U11). Raised by
  `busRead`, only in states no run reaches (`Inv`, Sys2Proof/Safety.lean). Safe: the model stops. -/
  | reservedErrorCode
  deriving DecidableEq, Repr

/-- A refusal: the model makes no claim about what was asked. -/
inductive Refusal where
  /-- A command whose meaning is not written yet, raised by `exec`; no arm of this model raises it. Safe. -/
  | notModelled (mnemonic : String)
  /-- A host access that reaches the window and is not a 32-bit access at a multiple-of-4 offset. The spec leaves its effect
  unspecified and says that a model refuses it (spec/20_memory.md R63, spec/93_implementation_defined.md U2). Raised by
  `busRead` and `busWrite`. Safe: the model stops. -/
  | unspecifiedAccess
  deriving DecidableEq, Repr

/-- The machine right after reset: the values of spec/10_state.md R55. PEND has no stated value (U7); 0 is the model's choice
(log 2). NB is 72, this hardware's (spec/00_scope.md R4). The agenda is empty: the block waits, idle, for the host
(spec/70_reset_and_hazards.md R198; log 1). -/
def State.reset : State where
  dvd := 0
  rem := 0#8
  digit := 0#8
  ofs := 0#8
  c := 1#40
  pacc := 0#12
  pcnt := 0#4
  pdir := .pack
  pout := 0#8
  err := false
  errcode := 0#4
  busy := false
  pend := 0#32
  rst := false
  agenda := []
  reads := []
  draws := 0
  base := 0
  nb := Config.nb

end Sys2Proof.Machine
end

