-- ==== Sys2Proof/Machine/Ops.lean ====
section
/-!
DEFINITION. The named operations over the block's state that the commands and the bus share: the error latch (the block's one
exception mechanism, spec/60_exceptions.md R155) and the return from the error state, reset, acceptance of a command, the DVD
window's slices, and the values returned to the host.
-/
namespace Sys2Proof.Machine

/-- A step's result on this machine. -/
abbrev Result := Host.Outcome State Fault Refusal

/-- The code of an error (spec/60_exceptions.md R157). -/
def ErrCode.code : ErrCode → BitVec 4
  | .illegalCmd => 1#4
  | .divByZero => 2#4
  | .unsupportedBase => 3#4
  | .divOverflow => 4#4
  | .pkrMode => 5#4
  | .pkrUnderflow => 6#4
  | .pkrOverflow => 7#4
  | .invalidPadding => 8#4
  | .invalidLength => 9#4
  | .overrun => 10#4

namespace State

/-! ### The error latch -/

/-- Taking an error: `if ERR = 0 then (ERR <- 1; ERRCODE <- code(E))`, and no other state changes (spec/60_exceptions.md R158,
R159). Nothing is saved but the code, no mode changes and no control moves (R164). The first error is kept (R163, R166). -/
def latch (s : State) (e : ErrCode) : State :=
  if s.err then s else { s with err := true, errcode := e.code }

/-- Return from the error state: `ERR <- 0; ERRCODE <- 0` (spec/44_control.md R151, spec/60_exceptions.md R165). -/
def clearError (s : State) : State := { s with err := false, errcode := 0#4 }

/-! ### Reset -/

/-- Every state element of the block takes its reset value (spec/10_state.md R55); the reset input, the agenda, the values
already read, the draws and the parameters BASE and NB are no elements of the block. -/
def applyReset (s : State) : State :=
  { State.reset with
    rst := s.rst
    agenda := s.agenda
    reads := s.reads
    draws := s.draws
    base := s.base
    nb := s.nb }

/-- RST is asserted: from now on the block accepts and completes nothing (spec/70_reset_and_hazards.md R195). -/
def assertRst (s : State) : State := { s with rst := true }

/-- RST is released: every element holds its reset value, and a command in flight is lost without effect
(spec/70_reset_and_hazards.md R196). Releasing an RST that is not asserted changes nothing. -/
def releaseRst (s : State) : State := if s.rst then { s.applyReset with rst := false } else s

/-! ### Commands in flight -/

/-- Acceptance of a command: `PEND <- w; BUSY <- 1` and nothing else (spec/20_memory.md R69). -/
def accept (s : State) (w : Word) : State := { s with pend := w, busy := true }

/-- The command in PEND is no longer in flight: `BUSY <- 0` (spec/20_memory.md R72). -/
def endCommand (s : State) : State := { s with busy := false }

/-- The command word `w` in flight, RST released, and the block's turn next: what it takes for the very next step to run `w`
(log 6). -/
def placeCommand (s : State) (w : Word) : State :=
  { s with pend := w, busy := true, rst := false, agenda := .blockTurn :: s.agenda }

/-! ### Values returned to the host -/

/-- A read returns `v` to the host; no state of the block changes (spec/20_memory.md R68). -/
def returnRead (s : State) (v : Word) : State := { s with reads := v :: s.reads }

/-- The next free draw, and the state in which it has been made (spec/00_scope.md R9, U1, U5; log 4). -/
def returnDraw (s : State) (shape : Word → Word) : State :=
  { s with reads := shape (Config.freeDraw s.draws) :: s.reads, draws := s.draws + 1 }

end State

/-! ### The DVD window -/

/-- The lowest bit of slice `k` of a dividend of `nb` bytes: `8*NB - 32 - 32*k` (spec/10_state.md R53). -/
def sliceLow (nb k : Nat) : Nat := 8 * nb - 32 - 32 * k

/-- The 32-bit slice `DVD[8*NB - 1 - 32*k : 8*NB - 32 - 32*k]` (spec/10_state.md R53). -/
def readSlice (nb d k : Nat) : Word := BitVec.ofNat 32 (d / 2 ^ sliceLow nb k)

/-- `DVD` with slice `k` replaced and no other bit changed (spec/20_memory.md R73): the bits above the slice, the value, the bits
below. -/
def writeSlice (nb d k : Nat) (v : Word) : Nat :=
  let low := sliceLow nb k
  d / 2 ^ (low + 32) * 2 ^ (low + 32) + v.toNat * 2 ^ low + d % 2 ^ low

/-! ### How a command ends -/

/-- A command completes with its effect. -/
def done (s : State) : Result := .next s

/-- `raise E`: the command fails, and no state other than the error latch changes (spec/00_scope.md notation,
spec/60_exceptions.md R159). -/
def raise (e : ErrCode) (s : State) : Result := .next (s.latch e)

end Sys2Proof.Machine
end

