-- ==== Sys2Proof/Machine/Operands.lean ====
section
/-!
DEFINITION. The operand forms of the commands (spec/30_encoding.md R87): an immediate used as it is, the character code that
PMD.CHR masks (spec/42_polymod.md R115), the divisor's legal range (spec/41_divider.md R95), the digit maps (R97, R98), and the
packer's units and output width (spec/43_packer.md R133, R137).
-/
namespace Sys2Proof.Machine

/-- `IMM8 & 0x1F`: the symbol of a prefix character (spec/42_polymod.md R115). -/
def charSymbol (a : Byte) : Sym := (a &&& 0x1F#8).setWidth 5

/-- The condition under which DIV.STEP raises no error, or the first error in the order of its raise lines
(spec/41_divider.md R95, spec/60_exceptions.md R162). -/
def divisorError (dvs : BitVec 9) (map : DigitMap) : Option ErrCode :=
  if dvs.toNat = 0 then some .divByZero
  else if dvs.toNat > 256 then some .unsupportedBase
  else if map = .b58 ∧ dvs.toNat > 58 then some .unsupportedBase
  else none

/-- The Base58 alphabet as ASCII codes, entry 0 first (spec/41_divider.md R98). -/
def base58Codes : List Nat :=
  [0x31, 0x32, 0x33, 0x34, 0x35, 0x36, 0x37, 0x38, 0x39] ++
  [0x41, 0x42, 0x43, 0x44, 0x45, 0x46, 0x47, 0x48] ++
  [0x4A, 0x4B, 0x4C, 0x4D, 0x4E] ++
  [0x50, 0x51, 0x52, 0x53, 0x54, 0x55, 0x56, 0x57, 0x58, 0x59, 0x5A] ++
  [0x61, 0x62, 0x63, 0x64, 0x65, 0x66, 0x67, 0x68, 0x69, 0x6A, 0x6B] ++
  [0x6D, 0x6E, 0x6F, 0x70, 0x71, 0x72, 0x73, 0x74, 0x75, 0x76, 0x77, 0x78, 0x79, 0x7A]

/-- The code of character `r` of the Base58 alphabet; `r < 58` is guaranteed by DIV.STEP's checks (spec/41_divider.md R97),
and the value beyond the table is never used. -/
def base58Code (r : Nat) : Byte := BitVec.ofNat 8 (base58Codes.getD r 0)

/-- `map(MAP, r)`: the remainder digit (spec/41_divider.md R97). -/
def mapDigit (map : DigitMap) (ofs : Byte) (r : Nat) : Byte :=
  match map with
  | .raw => BitVec.ofNat 8 r
  | .ofs => BitVec.ofNat 8 ((r + ofs.toNat) % 256)
  | .b58 => base58Code r

/-- `W`, the packer's output width (spec/43_packer.md R133). -/
def outWidth : Dir → Nat
  | .pack => 5
  | .unpack => 8

end Sys2Proof.Machine
end

