-- ==== Sys2Proof/Machine/Flags.lean ====
section
/-!
DEFINITION. The live flags of STATUS, functions of the state (spec/10_state.md R41 to R44), and the words the registers show
that are computed from the state: STATUS (R40), the polymod result (R49), the checksum symbols (R52) and PKR_STAT (R50).
-/
namespace Sys2Proof.Machine.State

/-- STATUS.DZ: `DVD = 0` (spec/10_state.md R41). -/
def dz (s : State) : Bool := s.dvd = 0

/-- The polymod result `C xor 1` (spec/10_state.md R49). -/
def polymodResult (s : State) : Acc := s.c ^^^ 1#40

/-- STATUS.PZ: `C xor 1 = 0` (spec/10_state.md R42). -/
def pz (s : State) : Bool := s.polymodResult = 0#40

/-- STATUS.PAV: an output unit is ready (spec/10_state.md R43). -/
def pav (s : State) : Bool :=
  match s.pdir with
  | .pack => 5 ≤ s.pcnt.toNat
  | .unpack => 8 ≤ s.pcnt.toNat

/-- STATUS.PPZ: `PACC = 0` (spec/10_state.md R44). -/
def ppz (s : State) : Bool := s.pacc = 0#12

/-- One flag at its bit position. -/
def flagBit (b : Bool) (i : Nat) : Word := if b then 1#32 <<< i else 0#32

/-- STATUS with its true fields (spec/10_state.md R40): BUSY, ERR, DZ, PZ, PAV, PPZ in bits 0 to 5, ERRCODE in bits 11..8,
0 elsewhere. It is what a read returns while BUSY = 0. -/
def statusWord (s : State) : Word :=
  flagBit s.busy 0 ||| flagBit s.err 1 ||| flagBit s.dz 2 ||| flagBit s.pz 3 ||| flagBit s.pav 4 ||| flagBit s.ppz 5
    ||| (s.errcode.setWidth 32 <<< 8)

/-- CKSYMi: symbol `i` of the polymod result, most significant first: `(C xor 1)[39 - 5*i : 35 - 5*i]`
(spec/10_state.md R52). -/
def checksumSymbol (s : State) (i : Nat) : Sym := s.polymodResult.extractLsb' (35 - 5 * i) 5

/-- PDIR as a bit (spec/10_state.md R29). -/
def pdirWord (s : State) : Word := s.pdir.code.setWidth 32

/-- PKR_STAT: `PACC << 16 | PDIR << 8 | PCNT` (spec/10_state.md R50). -/
def packerWord (s : State) : Word :=
  (s.pacc.setWidth 32 <<< 16) ||| (s.pdirWord <<< 8) ||| s.pcnt.setWidth 32

end Sys2Proof.Machine.State
end

