-- ==== Sys2Proof/Machine/Bus.lean ====
section
/-!
DEFINITION. The host bus (spec/20_memory.md) and the register map (spec/10_state.md R36 to R54): which register an access
reaches, what a read returns, what a write does, when a command word is accepted, and what BUSY = 1 and an asserted RST do to
all of this.
-/
namespace Sys2Proof.Machine

/-- The registers of the map (spec/10_state.md R36). -/
inductive Reg where
  | id | cfg | ctrl | status | cmd | rem | digit
  | pmdClo | pmdChi | pmdRlo | pmdRhi
  | pkrStat | pkrOut
  /-- CKSYMi, `i = 0..7` -/
  | cksym (i : Nat)
  /-- DVDk, `k = 0..NB/4-1` -/
  | dvd (k : Nat)
  /-- an offset the map does not list -/
  | reserved
  deriving DecidableEq, Repr

/-- The register at a word offset of the window, in a block of `nb` dividend bytes (spec/10_state.md R36, R54). -/
def Reg.ofOffset (nb off : Nat) : Reg :=
  if off = 0x000 then .id
  else if off = 0x004 then .cfg
  else if off = 0x008 then .ctrl
  else if off = 0x00C then .status
  else if off = 0x010 then .cmd
  else if off = 0x014 then .rem
  else if off = 0x018 then .digit
  else if off = 0x020 then .pmdClo
  else if off = 0x024 then .pmdChi
  else if off = 0x028 then .pmdRlo
  else if off = 0x02C then .pmdRhi
  else if off = 0x030 then .pkrStat
  else if off = 0x034 then .pkrOut
  else if 0x040 ≤ off ∧ off < 0x060 then .cksym ((off - 0x040) / 4)
  else if 0x080 ≤ off ∧ off < 0x080 + nb then .dvd ((off - 0x080) / 4)
  else .reserved

/-- What a host access reaches. -/
inductive Reach where
  /-- no byte of the window: the access does not reach the block (spec/20_memory.md R67) -/
  | outside
  /-- the window, but not as a 32-bit access at a multiple-of-4 offset (spec/20_memory.md R63) -/
  | unspecified
  /-- the word of the window at this offset (spec/20_memory.md R62) -/
  | word (off : Nat)
  deriving DecidableEq, Repr

/-- Where an access of `size` bytes at the host address `addr` goes, the window being at `base` (spec/20_memory.md R61 to R63,
R67). -/
def reach (base addr size : Nat) : Reach :=
  if addr + size ≤ base ∨ base + Config.windowBytes ≤ addr then .outside
  else if size = 4 ∧ base ≤ addr ∧ (addr - base) % 4 = 0 then .word (addr - base)
  else .unspecified

/-! ### Reads -/

/-- The value a register reads by its rule in spec/10_state.md (R37 to R54), for a read while BUSY = 0
(spec/20_memory.md R64). -/
def regRead (r : Reg) (s : State) : Word :=
  match r with
  | .id => Config.idWord
  | .cfg => Config.cfgWord s.nb
  | .ctrl => s.ofs.setWidth 32
  | .status => s.statusWord
  | .cmd => 0#32
  | .rem => s.rem.setWidth 32
  | .digit => s.digit.setWidth 32
  | .pmdClo => s.c.extractLsb' 0 32
  | .pmdChi => (s.c.extractLsb' 32 8).setWidth 32
  | .pmdRlo => s.polymodResult.extractLsb' 0 32
  | .pmdRhi => (s.polymodResult.extractLsb' 32 8).setWidth 32
  | .pkrStat => s.packerWord
  | .pkrOut => s.pout.setWidth 32
  | .cksym i => (s.checksumSymbol i).setWidth 32
  | .dvd k => readSlice s.nb s.dvd k
  | .reserved => 0#32

/-- A free draw as STATUS shows it while BUSY = 1: bit 0 reads 1 and every other bit is free (spec/10_state.md R40). -/
def busyStatus (draw : Word) : Word := draw ||| 1#32

/-- A read while BUSY = 1: ID, CFG and CTRL read their true values, STATUS shows BUSY, and everything else is a free draw
(spec/00_scope.md R9, spec/10_state.md R37 to R40; log 4). -/
def readBusy (r : Reg) (s : State) : State :=
  match r with
  | .id => s.returnRead (regRead .id s)
  | .cfg => s.returnRead (regRead .cfg s)
  | .ctrl => s.returnRead (regRead .ctrl s)
  | .status => s.returnDraw busyStatus
  | .cmd | .rem | .digit | .pmdClo | .pmdChi | .pmdRlo | .pmdRhi | .pkrStat | .pkrOut | .cksym _ | .dvd _ | .reserved =>
    s.returnDraw id

/-- The read would show an ERRCODE from 11 to 15, which the spec says is never produced
(spec/93_implementation_defined.md U11). -/
def showsReservedCode (r : Reg) (s : State) : Bool := r = .status && 10 < s.errcode.toNat

/-- `MemRead` (spec/20_memory.md R64): no effect but the value returned (R68). While RST is asserted the value is a free draw
(spec/70_reset_and_hazards.md R195); outside the window it is the platform's (R67). -/
def busRead (addr size : Nat) (s : State) : Result :=
  match reach s.base addr size with
  | .outside => .next (s.returnDraw id)
  | .unspecified => .refused .unspecifiedAccess
  | .word off =>
    if s.rst then .next (s.returnDraw id)
    else if s.busy then .next (readBusy (Reg.ofOffset s.nb off) s)
    else if showsReservedCode (Reg.ofOffset s.nb off) s then .fault .reservedErrorCode
    else .next (s.returnRead (regRead (Reg.ofOffset s.nb off) s))

/-! ### Writes -/

/-- The gate of a command write while BUSY = 0: every word while ERR = 0, and exactly the words of SYS.CLRERR and SYS.SRST
while ERR = 1 (spec/20_memory.md R69, R70). -/
def acceptsWord (s : State) (w : Word) : Bool := !s.err || w = 0x00000001#32 || w = 0x00000002#32

/-- A write to CMD, CTRL or a DVD word: under BUSY = 1 it is ignored and latches OVERRUN (spec/20_memory.md R71,
spec/60_exceptions.md R158); otherwise it has its effect. -/
def State.orOverrun (s : State) (effect : State) : State := if s.busy then s.latch .overrun else effect

/-- What a write of `v` to a register does with RST released (spec/20_memory.md R65, R66, R69 to R71, R73, R74). -/
def regWrite (r : Reg) (v : Word) (s : State) : State :=
  match r with
  | .cmd => s.orOverrun (if acceptsWord s v then s.accept v else s)
  | .ctrl => s.orOverrun { s with ofs := v.setWidth 8 }
  | .dvd k => s.orOverrun { s with dvd := writeSlice s.nb s.dvd k v }
  | .id | .cfg | .status | .rem | .digit | .pmdClo | .pmdChi | .pmdRlo | .pmdRhi | .pkrStat | .pkrOut | .cksym _
  | .reserved => s

/-- `MemWrite` (spec/20_memory.md R65). While RST is asserted every write is ignored (spec/70_reset_and_hazards.md R195). -/
def busWrite (addr size : Nat) (v : Word) (s : State) : Result :=
  match reach s.base addr size with
  | .outside => .next s
  | .unspecified => .refused .unspecifiedAccess
  | .word off => .next (if s.rst then s else regWrite (Reg.ofOffset s.nb off) v s)

end Sys2Proof.Machine
end

