-- ==== Sys2Proof/Machine/Control.lean ====
section
/-!
DEFINITION. The control commands (spec/44_control.md). A meaning is the rule of a command as it completes; that BUSY falls with
the completion (spec/20_memory.md R72) is said once, in `complete`.
-/
namespace Sys2Proof.Machine

/-- SYS.NOP: no state changes (spec/44_control.md R150). -/
def execSysNop (s : State) : Result := done s

/-- SYS.CLRERR: `ERR <- 0; ERRCODE <- 0` (spec/44_control.md R151). -/
def execSysClrerr (s : State) : Result := done s.clearError

/-- SYS.SRST: every state element takes its reset value (spec/44_control.md R152). -/
def execSysSrst (s : State) : Result := done s.applyReset

end Sys2Proof.Machine
end

