-- ==== Sys2Proof/Machine/Divider.lean ====
section
/-!
DEFINITION. The divider unit (spec/41_divider.md): the byte-serial long division of R95 and the commands DIV.CLR, DIV.SHB and
DIV.STEP.
-/
namespace Sys2Proof.Machine

/-- Byte `i` of an `nb`-byte number, most significant first: `A[8*NB-1-8*i : 8*NB-8-8*i]` (spec/41_divider.md R95). -/
def dividendByte (nb A i : Nat) : Nat := A / 256 ^ (nb - 1 - i) % 256

/-- One turn of the loop of spec/41_divider.md R95 on the pair `(q, r)` and the next byte. -/
def divideByte (d : Nat) (qr : Nat × Nat) (b : Nat) : Nat × Nat :=
  let t := qr.2 * 256 + b
  (qr.1 * 256 + t / d, t % d)

/-- The loop of spec/41_divider.md R95 over the `nb` bytes of `A`, most significant first: the pair `(q, r)` after it. It is
stated for every `NB` (spec/92_eei_decisions.md D4). -/
def longDivide (nb A d : Nat) : Nat × Nat :=
  ((List.range nb).map (dividendByte nb A)).foldl (divideByte d) (0, 0)

/-- DIV.CLR: `DVD <- 0; REM <- 0; DIGIT <- 0` (spec/41_divider.md R99). -/
def execDivClr (s : State) : Result := done { s with dvd := 0, rem := 0#8, digit := 0#8 }

/-- The most significant byte of DVD, `DVD[8*NB-1 : 8*NB-8]` (spec/41_divider.md R100): DVD has no bits above it. -/
def topByte (nb d : Nat) : Nat := d / 256 ^ (nb - 1)

/-- DIV.SHB: `DVD <- (DVD << 8) | IMM8`, refusing to lose a non-zero byte (spec/41_divider.md R100). -/
def execDivShb (imm8 : Byte) (s : State) : Result :=
  if topByte s.nb s.dvd ≠ 0 then raise .divOverflow s
  else done { s with dvd := s.dvd * 256 + imm8.toNat }

/-- DIV.STEP: divide DVD by the divisor and map the remainder (spec/41_divider.md R95, R97). -/
def execDivStep (dvs : BitVec 9) (map : DigitMap) (s : State) : Result :=
  match divisorError dvs map with
  | some e => raise e s
  | none =>
    let qr := longDivide s.nb s.dvd dvs.toNat
    done { s with
      dvd := qr.1
      rem := BitVec.ofNat 8 qr.2
      digit := mapDigit map s.ofs qr.2 }

end Sys2Proof.Machine
end

