-- ==== Sys2Proof/Machine/Packer.lean ====
section
/-!
DEFINITION. The packer unit (spec/43_packer.md): the commands PKR.INIT, PKR.PUT8, PKR.PUT5, PKR.GET, PKR.FLUSH and PKR.END over
the shift register PACC and its counter PCNT.
-/
namespace Sys2Proof.Machine

/-- Append `n` bits with value `v` to the packer's stream: `PACC <- (PACC << n) | v; PCNT <- PCNT + n`
(spec/43_packer.md R131, R132). -/
def State.putBits (s : State) (n : Nat) (v : Shift) : State :=
  { s with pacc := (s.pacc <<< n) ||| v, pcnt := s.pcnt + BitVec.ofNat 4 n }

/-- Take the oldest `w` of the `PCNT` bits held: `POUT <- PACC >> (PCNT - W); PCNT <- PCNT - W; PACC <- PACC mod 2^PCNT`, PCNT
in the last assignment being the new count (spec/43_packer.md R134). -/
def State.takeBits (s : State) (w : Nat) : State :=
  let left := s.pcnt.toNat - w
  { s with
    pout := (s.pacc >>> left).setWidth 8
    pcnt := BitVec.ofNat 4 left
    pacc := BitVec.ofNat 12 (s.pacc.toNat % 2 ^ left) }

/-- PKR.INIT: `PACC <- 0; PCNT <- 0; PDIR <- DIR; POUT <- 0` (spec/43_packer.md R130). -/
def execPkrInit (dir : Dir) (s : State) : Result :=
  done { s with pacc := 0#12, pcnt := 0#4, pdir := dir, pout := 0#8 }

/-- PKR.PUT8: append one byte, in PACK only, with at most 4 bits held (spec/43_packer.md R131). -/
def execPkrPut8 (imm8 : Byte) (s : State) : Result :=
  if s.pdir ≠ .pack then raise .pkrMode s
  else if s.pcnt.toNat > 4 then raise .pkrOverflow s
  else done (s.putBits 8 (imm8.setWidth 12))

/-- PKR.PUT5: append one symbol, in UNPACK only, with at most 7 bits held (spec/43_packer.md R132). -/
def execPkrPut5 (imm5 : Sym) (s : State) : Result :=
  if s.pdir ≠ .unpack then raise .pkrMode s
  else if s.pcnt.toNat > 7 then raise .pkrOverflow s
  else done (s.putBits 5 (imm5.setWidth 12))

/-- PKR.GET: take the oldest `W` bits of the stream (spec/43_packer.md R134). -/
def execPkrGet (s : State) : Result :=
  if s.pcnt.toNat < outWidth s.pdir then raise .pkrUnderflow s
  else done (s.takeBits (outWidth s.pdir))

/-- PKR.FLUSH: emit the last symbol, padded with zero bits on the right, in PACK only (spec/43_packer.md R135). -/
def execPkrFlush (s : State) : Result :=
  if s.pdir ≠ .pack then raise .pkrMode s
  else if s.pcnt.toNat = 0 then done s
  else if s.pcnt.toNat > 4 then raise .pkrOverflow s
  else done { s with
    pout := ((s.pacc <<< (5 - s.pcnt.toNat)) &&& 0x1F#12).setWidth 8
    pacc := 0#12
    pcnt := 0#4 }

/-- PKR.END: check the leftover bits of an unpacked stream, in UNPACK only (spec/43_packer.md R136). -/
def execPkrEnd (s : State) : Result :=
  if s.pdir ≠ .unpack then raise .pkrMode s
  else if s.pcnt.toNat > 4 then raise .invalidLength s
  else if s.pacc ≠ 0#12 then raise .invalidPadding s
  else done { s with pacc := 0#12, pcnt := 0#4 }

end Sys2Proof.Machine
end

