-- ==== Sys2Proof/Machine/Polymod.lean ====
section
/-!
DEFINITION. The polymod unit (spec/42_polymod.md): the generators (R111), the step function (R112), and the commands PMD.INIT,
PMD.SYM and PMD.CHR.
-/
namespace Sys2Proof.Machine

/-- The five generator constants G0 to G4 (spec/42_polymod.md R111). -/
def generator (i : Nat) : Acc :=
  match i with
  | 0 => 0x98F2BC8E61#40
  | 1 => 0x79B76D99E2#40
  | 2 => 0xF33E5FB3C4#40
  | 3 => 0xAE2EABE2A8#40
  | 4 => 0x1E4F43E470#40
  | _ => 0#40

/-- XOR `G_i` into `c` if bit `i` of `c0` is set (spec/42_polymod.md R112). -/
def applyGenerator (c0 : Sym) (c : Acc) (i : Nat) : Acc := if c0.getLsbD i then c ^^^ generator i else c

/-- `pstep(C, d)` (spec/42_polymod.md R112): the top five bits select the generators XORed into the accumulator shifted left by
five bits with the symbol XORed in. -/
def pstep (c : Acc) (d : Sym) : Acc :=
  [0, 1, 2, 3, 4].foldl (applyGenerator (c.extractLsb' 35 5)) ((c <<< 5) ^^^ d.setWidth 40)

/-- `polymod(s)` of a symbol sequence, the source's function: every symbol consumed from 1, then `xor 1`
(spec/42_polymod.md opening, R112). -/
def polymod (symbols : List Sym) : Acc := symbols.foldl pstep 1#40 ^^^ 1#40

/-- PMD.INIT: `C <- 1` (spec/42_polymod.md R113). -/
def execPmdInit (s : State) : Result := done { s with c := 1#40 }

/-- PMD.SYM: `C <- pstep(C, IMM5)` (spec/42_polymod.md R114). -/
def execPmdSym (imm5 : Sym) (s : State) : Result := done { s with c := pstep s.c imm5 }

/-- PMD.CHR: `C <- pstep(C, IMM8 & 0x1F)` (spec/42_polymod.md R115). -/
def execPmdChr (imm8 : Byte) (s : State) : Result := done { s with c := pstep s.c (charSymbol imm8) }

end Sys2Proof.Machine
end

