-- ==== Sys2Proof/Machine/Dispatch.lean ====
section
/-!
DEFINITION. One arm per command: the rule of the decoded command (spec/30_encoding.md R88, spec/20_memory.md R72).
-/
namespace Sys2Proof.Machine

def exec (i : Instr) (s : State) : Host.Outcome State Fault Refusal :=
  match i with
  -- spec/44_control.md
  | .sysNop => Sys2Proof.Machine.execSysNop s
  | .sysClrerr => Sys2Proof.Machine.execSysClrerr s
  | .sysSrst => Sys2Proof.Machine.execSysSrst s
  -- spec/41_divider.md
  | .divClr => Sys2Proof.Machine.execDivClr s
  | .divShb imm8 => Sys2Proof.Machine.execDivShb imm8 s
  | .divStep dvs map => Sys2Proof.Machine.execDivStep dvs map s
  -- spec/42_polymod.md
  | .pmdInit => Sys2Proof.Machine.execPmdInit s
  | .pmdSym imm5 => Sys2Proof.Machine.execPmdSym imm5 s
  | .pmdChr imm8 => Sys2Proof.Machine.execPmdChr imm8 s
  -- spec/43_packer.md
  | .pkrInit dir => Sys2Proof.Machine.execPkrInit dir s
  | .pkrPut8 imm8 => Sys2Proof.Machine.execPkrPut8 imm8 s
  | .pkrPut5 imm5 => Sys2Proof.Machine.execPkrPut5 imm5 s
  | .pkrGet => Sys2Proof.Machine.execPkrGet s
  | .pkrFlush => Sys2Proof.Machine.execPkrFlush s
  | .pkrEnd => Sys2Proof.Machine.execPkrEnd s

end Sys2Proof.Machine
end

