-- ==== Sys2Proof/Machine/Block.lean ====
section
/-!
DEFINITION. The block as an agent (spec/20_memory.md R60, R72): the completion of the command in PEND, the block's turn, and
what each event of the agenda does.
-/
namespace Sys2Proof.Machine

/-- The completion of the command in PEND, one atomic step (spec/20_memory.md R72): BUSY falls, and the decoded command's rule
is executed, or ILLEGAL_CMD is latched (spec/30_encoding.md R88, spec/60_exceptions.md R159). -/
def complete (s : State) : Result :=
  match decode s.pend with
  | .ok i => exec i s.endCommand
  | .error _ => raise .illegalCmd s.endCommand

/-- The block's turn: with RST released and BUSY = 1 it completes its command; otherwise it has nothing to do
(spec/20_memory.md R72, spec/70_reset_and_hazards.md R195, R198). -/
def takeTurn (s : State) : Result := if !s.rst && s.busy then complete s else .next s

/-- What one event does. -/
def serve (e : Event) (s : State) : Result :=
  match e with
  | .read addr size => busRead addr size s
  | .write addr size v => busWrite addr size v s
  | .blockTurn => takeTurn s
  | .rstAssert => .next s.assertRst
  | .rstRelease => .next s.releaseRst

/-- The next event of the agenda; with the agenda empty it is the block's turn, so that a command in flight always completes
(spec/20_memory.md R72, spec/70_reset_and_hazards.md R205). -/
def nextEvent (s : State) : Event := s.agenda.headD .blockTurn

/-- The state with the next event taken off the agenda. -/
def State.popEvent (s : State) : State := { s with agenda := s.agenda.tail }

end Sys2Proof.Machine
end

