-- ==== Sys2Proof/Machine/Step.lean ====
section
/-!
DEFINITION. One step of the machine: the next event of the agenda takes effect. Host accesses take effect one at a time in the
order the host issues them, and a command completes at the block's turn (spec/20_memory.md R72, R78).
-/
namespace Sys2Proof.Machine

/-- One step: the next event, served in the state without it. -/
def step (s : State) : Host.Outcome State Fault Refusal := serve (nextEvent s) s.popEvent

/-- `s` with the command word `w` where the very next step runs it: in PEND, in flight, with the block's turn next
(spec/20_memory.md R69, R72; log 6). -/
def State.withFetchWord (s : State) (nbits w : Nat) : State := s.placeCommand (BitVec.ofNat 32 (w % 2 ^ nbits))

end Sys2Proof.Machine
end

