-- ==== Sys2Proof/Machine/Command.lean ====
section
/-!
DEFINITION. Commands issued one after the other, each completed before the next is written: the statement `<command>` of
spec/30_encoding.md R92, "issue then wait", on its own; and the sequences of commands the spec gives for the source's functions
(spec/00_scope.md R3): the polymod of a symbol sequence (spec/42_polymod.md R112), the pack procedure and the unpack procedure
(spec/43_packer.md R138, R139), and the conversion to a base (spec/41_divider.md R102). What a write to CMD does on the bus and
what the block does at its turn are `regWrite` and `takeTurn`; `command` is the two together with nothing in between.
-/
namespace Sys2Proof.Machine

/-- The command word `w` is written to CMD and the host waits until BUSY = 0 (spec/30_encoding.md R92), from an idle block with
RST released: an accepted word is completed, and a word ignored under ERR = 1 changes nothing (spec/20_memory.md R69, R70, R72,
spec/70_reset_and_hazards.md R204). -/
def commandWord (w : Word) (s : State) : Result := if acceptsWord s w then complete (s.accept w) else .next s

/-- `<command>` (spec/30_encoding.md R92). -/
def command (i : Instr) (s : State) : Result := commandWord (encode i) s

/-- Run `f` on the next state of a result; a fault or a refusal stays. -/
def andThen (r : Result) (f : State → Result) : Result :=
  match r with
  | .next s => f s
  | .fault e => .fault e
  | .refused e => .refused e

/-- Commands in order, each completed before the next (spec/30_encoding.md R92, spec/20_memory.md R78). -/
def commands : List Instr → State → Result
  | [], s => .next s
  | i :: is, s => andThen (command i s) (commands is)

/-- The state after one command; a command of this block always leaves one. -/
def afterCommand (i : Instr) (s : State) : State :=
  match command i s with
  | .next t => t
  | .fault _ => s
  | .refused _ => s

/-- The loop `while PAV = 1: pkr.get ; out POUT` of the procedures of spec/43_packer.md R138, R139, at most `n` times around: the
values of POUT in order, and the state after it. Every `pkr.get` takes at least 5 of at most 12 bits, so `n = 2` is enough. -/
def drain : Nat → State → List Byte × State
  | 0, s => ([], s)
  | n + 1, s =>
    if s.pav then
      let t := afterCommand .pkrGet s
      let r := drain n t
      (t.pout :: r.1, r.2)
    else ([], s)

/-- One turn of a procedure: put one unit, then take every complete unit (spec/43_packer.md R138, R139). -/
def putAndDrain (put : Instr) (s : State) : List Byte × State := drain 2 (afterCommand put s)

/-- A list of units put one after the other, with what came out. -/
def putAll : List Instr → State → List Byte × State
  | [], s => ([], s)
  | i :: is, s =>
    let r := putAndDrain i s
    let rest := putAll is r.2
    (r.1 ++ rest.1, rest.2)

/-- `if PCNT > 0: pkr.flush ; out POUT` (spec/43_packer.md R138). -/
def flushTail (s : State) : List Byte × State :=
  if 0 < s.pcnt.toNat then
    let t := afterCommand .pkrFlush s
    ([t.pout], t)
  else ([], s)

/-- The pack procedure for a byte string (spec/43_packer.md R138): what was emitted, each value a symbol in the low five bits of
POUT, and the state after it. -/
def packProcedure (bytes : List Byte) (s : State) : List Byte × State :=
  let r := putAll (bytes.map .pkrPut8) (afterCommand (.pkrInit .pack) s)
  let tail := flushTail r.2
  (r.1 ++ tail.1, tail.2)

/-- The unpack procedure for a symbol string, up to its `pkr.end` (spec/43_packer.md R139): the bytes emitted, and the state
before `pkr.end`. -/
def unpackBody (symbols : List Sym) (s : State) : List Byte × State :=
  putAll (symbols.map .pkrPut5) (afterCommand (.pkrInit .unpack) s)

/-- The unpack procedure (spec/43_packer.md R139), `pkr.end` included. -/
def unpackProcedure (symbols : List Sym) (s : State) : List Byte × State :=
  let r := unpackBody symbols s
  (r.1, afterCommand .pkrEnd r.2)

/-- The loop `while STATUS.DZ = 0: div.step d, m ; out DIGIT` (spec/41_divider.md R102), at most `n` times around: the values of
DIGIT in order, least significant digit first, and the state after it. -/
def convert (dvs : BitVec 9) (map : DigitMap) : Nat → State → List Byte × State
  | 0, s => ([], s)
  | n + 1, s =>
    if s.dz then ([], s)
    else
      let t := afterCommand (.divStep dvs map) s
      let r := convert dvs map n t
      (t.digit :: r.1, r.2)

/-- PMD.INIT and then one PMD.SYM per symbol: the commands that compute `polymod` (spec/00_scope.md R3, spec/42_polymod.md
R112). -/
def polymodCommands (symbols : List Sym) : List Instr := .pmdInit :: symbols.map .pmdSym

/-- DIV.CLR and then one DIV.SHB per byte, first byte first (spec/30_encoding.md R93 `div.load`, spec/41_divider.md R100). -/
def loadCommands (bytes : List Byte) : List Instr := .divClr :: bytes.map .divShb

/-- The value of a big-endian byte string: `sum b[i] * 256^(n-1-i)` (spec/00_scope.md R12). -/
def bytesValue (bytes : List Byte) : Nat := bytes.foldl (fun v b => v * 256 + b.toNat) 0

/-! ### The packer's stream of bits -/

/-- The low `n` bits of a number, the most significant first. -/
def bitsOf (n v : Nat) : List Bool := (List.range n).reverse.map (Nat.testBit v)

/-- The bits the packer holds, the oldest first: the oldest at bit `PCNT - 1` of PACC (spec/43_packer.md R137). -/
def State.stream (s : State) : List Bool := bitsOf s.pcnt.toNat s.pacc.toNat

end Sys2Proof.Machine
end

