-- ==== Sys2Proof/Machine/Address.lean ====
section
/-!
DEFINITION. What the host does around the block to build, check and take apart an address, as far as spec/ states it: the
checksum-input streams (spec/42_polymod.md R117 to R119), the payload layout (spec/43_packer.md R140 to R145), and the order and
the leading characters of a Base58Check string (spec/41_divider.md R102). The block checks none of it; the machine's step does
not use this file.
-/
namespace Sys2Proof.Machine

/-! ### The checksum-input streams -/

/-- The stream's commands up to the checksum: PMD.INIT, one PMD.CHR per prefix character, the zero symbol, one PMD.SYM per
payload symbol (spec/42_polymod.md R117). -/
def streamCommands (pre : List Byte) (payload : List Sym) : List Instr :=
  .pmdInit :: (pre.map .pmdChr ++ .pmdSym 0#5 :: payload.map .pmdSym)

/-- Generation: eight zero placeholder symbols at the end, `pmd.pad8` (spec/42_polymod.md R117). -/
def generationCommands (pre : List Byte) (payload : List Sym) : List Instr :=
  streamCommands pre payload ++ List.replicate 8 (.pmdSym 0#5)

/-- Verification: the checksum symbols actually present at the end (spec/42_polymod.md R117). -/
def verificationCommands (pre : List Byte) (payload checksum : List Sym) : List Instr :=
  streamCommands pre payload ++ checksum.map .pmdSym

/-- The eight checksum symbols, CKSYM0 first, as generation appends them to the payload (spec/42_polymod.md R118). -/
def State.checksum (s : State) : List Sym := (List.range 8).map s.checksumSymbol

/-! ### The payload -/

/-- The hash length in bits of a hash-size code (spec/43_packer.md R143). -/
def hashBits (code : BitVec 3) : Nat := [160, 192, 224, 256, 320, 384, 448, 512].getD code.toNat 0

/-- The padding bits of a hash-size code (spec/43_packer.md R143). -/
def paddingBits (code : BitVec 3) : Nat := [2, 0, 3, 1, 2, 3, 4, 0].getD code.toNat 0

/-- The payload symbols before the checksum of a hash-size code (spec/43_packer.md R143). -/
def payloadLength (code : BitVec 3) : Nat := [34, 40, 47, 53, 66, 79, 92, 104].getD code.toNat 0

/-- The version byte: `type << 3 | hashSize`, below 128 (spec/43_packer.md R142). -/
def versionByte (kind : BitVec 4) (code : BitVec 3) : Byte := (kind.setWidth 8 <<< 3) ||| code.setWidth 8

/-- The payload's symbols, without the checksum: what the pack procedure emits for the version byte and the hash, each value in
the low five bits of POUT (spec/43_packer.md R138, R140). -/
def packPayload (kind : BitVec 4) (code : BitVec 3) (hash : List Byte) (s : State) : List Sym :=
  (packProcedure (versionByte kind code :: hash) s).1.map fun o => o.extractLsb' 0 5

/-- The alphabet of payload symbols (spec/43_packer.md R145). -/
def payloadAlphabet : List Char := "qpzry9x8gf2tvdw0s3jn54khce6mua7l".toList

/-- The character of a symbol (spec/43_packer.md R145). -/
def symbolChar (x : Sym) : Char := payloadAlphabet.getD x.toNat '?'

/-- The symbol of a payload character, lower- or upper-case, if it is one of the alphabet's (spec/43_packer.md R145). -/
def symbolOfChar (c : Char) : Option Sym := (payloadAlphabet.idxOf? c.toLower).map (BitVec.ofNat 5)

/-! ### Base58Check -/

/-- The string's character codes from the bytes loaded and the digits the loop of R102 emitted: the digits reversed, after one
`1` for every leading zero byte (spec/41_divider.md R102). -/
def base58Check (bytes digits : List Byte) : List Byte :=
  (bytes.takeWhile (· = 0#8)).map (fun _ => 0x31#8) ++ digits.reverse

end Sys2Proof.Machine
end

