-- ==== Sys2Proof/Machine/Asm.lean ====
section
/-!
DEFINITION. The assembler (spec/30_encoding.md R91, R93, R94): operand ranges and words of commands, the pseudo-instructions'
expansions, and the reading of a program's text. The assembler has no behaviour of its own: a line is a host statement or one or
more commands. What the spec leaves open about the host's language is settled here and named in log 13.
-/
namespace Sys2Proof.Asm

/-! ### Commands and pseudo-instructions -/

/-- The command of an assembler form whose operands are in range; an operand outside its range is refused rather than truncated
(spec/30_encoding.md R91). -/
def assemble (c : AsmCmd Nat) : Option Instr :=
  if c.wellFormed then
    match c with
    | .sysNop => some .sysNop
    | .sysClrerr => some .sysClrerr
    | .sysSrst => some .sysSrst
    | .divClr => some .divClr
    | .divShb b => some (.divShb (BitVec.ofNat 8 b))
    | .divStep d m => some (.divStep (BitVec.ofNat 9 d) m)
    | .pmdInit => some .pmdInit
    | .pmdSym s => some (.pmdSym (BitVec.ofNat 5 s))
    | .pmdChr a => some (.pmdChr (BitVec.ofNat 8 a))
    | .pkrInit d => some (.pkrInit d)
    | .pkrPut8 b => some (.pkrPut8 (BitVec.ofNat 8 b))
    | .pkrPut5 s => some (.pkrPut5 (BitVec.ofNat 5 s))
    | .pkrGet => some .pkrGet
    | .pkrFlush => some .pkrFlush
    | .pkrEnd => some .pkrEnd
  else none

/-- The expansion of a pseudo-instruction (spec/30_encoding.md R93); `lit` spells a number as an operand. -/
def expandWith {α : Type} (lit : Nat → α) : Pseudo α → List (AsmCmd α)
  | .pmdSep => [.pmdSym (lit 0)]
  | .pmdPad8 => List.replicate 8 (.pmdSym (lit 0))
  | .pmdPrefix codes => codes.map .pmdChr ++ [.pmdSym (lit 0)]
  | .divLoad bytes => .divClr :: bytes.map .divShb
  | .divB58 => [.divStep (lit 58) .b58]

/-- The commands of a pseudo-instruction with its operands in range, for a block of `nb` dividend bytes (spec/30_encoding.md
R93). -/
def assemblePseudo (nb : Nat) (p : Pseudo Nat) : Option (List Instr) :=
  if p.wellFormed nb then (expandWith id p).mapM assemble else none

/-! ### Host statements (spec/30_encoding.md R92) -/

/-- A host variable. -/
abbrev Var := String

/-- The host's arithmetic on naturals, the operators of spec/00_scope.md's notation table with subtraction and products. -/
inductive Arith where
  | add | sub | mul | div | mod | shl | shr | and | or | xor
  deriving DecidableEq, Repr

/-- A value the host computes. -/
inductive Expr where
  /-- a number -/
  | lit (n : Nat)
  /-- a host variable -/
  | var (x : Var)
  /-- the field `x[hi:lo]` of a variable (spec/00_scope.md R10) -/
  | bits (x : Var) (hi lo : Nat)
  /-- an operation -/
  | bin (op : Arith) (a b : Expr)
  deriving DecidableEq, Repr

/-- A comparison of two numbers. -/
inductive Rel where
  | eq | ne | lt | le | gt | ge
  deriving DecidableEq, Repr

/-- A condition on host variables. -/
inductive Cond where
  | cmp (r : Rel) (a b : Expr)
  deriving DecidableEq, Repr

/-- A part of a list: a value, or a list of the host's by its name (spelled as a variable), or a run of such a list's elements. -/
inductive Item where
  /-- a value; a name the host has a list under stands for all of that list -/
  | value (e : Expr)
  /-- `x[i..j]`: elements `i` to `j` of the host's list `x`, both included -/
  | slice (x : Var) (i j : Expr)
  deriving DecidableEq, Repr

/-- The statements a host executes one at a time (spec/30_encoding.md R92). -/
inductive Stmt where
  /-- `wr off, v` -/
  | wr (off v : Expr)
  /-- `rd off -> x` -/
  | rd (off : Expr) (x : Var)
  /-- `wait` -/
  | wait
  /-- `issue <command>` -/
  | issue (c : AsmCmd Expr)
  /-- `label:` -/
  | label (l : String)
  /-- `loop label while cond` -/
  | loop (l : String) (c : Cond)
  /-- `if cond`, up to its `end` -/
  | ifc (c : Cond)
  /-- `for x in list`, up to its `end` -/
  | forIn (x : Var) (xs : List Item)
  /-- `end` -/
  | close
  /-- `out x` -/
  | out (e : Expr)
  /-- `out "text"` -/
  | outText (s : String)
  /-- `x <- e`: host arithmetic -/
  | set (x : Var) (e : Expr)
  deriving DecidableEq, Repr

/-- A source line: a statement, or one of the forms that stand for several statements. -/
inductive Line where
  | stmt (s : Stmt)
  /-- `<command>`: `issue <command>` then `wait` (spec/30_encoding.md R92) -/
  | cmd (c : AsmCmd Expr)
  /-- a pseudo-instruction that stands for commands (spec/30_encoding.md R93) -/
  | pseudo (p : Pseudo Expr)
  /-- `chkerr -> x` (spec/30_encoding.md R93) -/
  | chkerr (x : Var)
  deriving DecidableEq, Repr

/-- `<command>` is `issue <command>` then `wait` (spec/30_encoding.md R92). -/
def issueAndWait (c : AsmCmd Expr) : List Stmt := [.issue c, .wait]

/-- The statements of a line (spec/30_encoding.md R92, R93). -/
def Line.expand : Line → List Stmt
  | .stmt s => [s]
  | .cmd c => issueAndWait c
  | .pseudo p => (expandWith Expr.lit p).flatMap issueAndWait
  | .chkerr x => [.rd (.lit 0x00C) "t", .set x (.bits "t" 11 8)]

/-! ### The value of an expression -/

/-- Why an expression has no value. -/
inductive ExprError where
  /-- a variable that nothing has bound: spec/30_encoding.md R92 gives it no value (DESIGN CHOICE, log 13) -/
  | unbound (x : Var)
  /-- a difference below 0, or a division by 0: the host's numbers are naturals (DESIGN CHOICE, log 13) -/
  | noValue
  /-- a field `x[hi:lo]` with `hi < lo`: it has no width (spec/00_scope.md R10 is silent; DESIGN CHOICE, log 13) -/
  | noField
  deriving DecidableEq, Repr

/-- One operation, if it has a value. -/
def Arith.apply (op : Arith) (a b : Nat) : Option Nat :=
  match op with
  | .add => some (a + b)
  | .sub => if b ≤ a then some (a - b) else none
  | .mul => some (a * b)
  | .div => if b = 0 then none else some (a / b)
  | .mod => if b = 0 then none else some (a % b)
  | .shl => some (a <<< b)
  | .shr => some (a >>> b)
  | .and => some (a &&& b)
  | .or => some (a ||| b)
  | .xor => some (a ^^^ b)

/-- The value of an expression, its variables' values being `look`'s; `x[hi:lo]` is the field of spec/00_scope.md R10. There is
none where the expression reads a variable that nothing has bound, on which spec/30_encoding.md R92 is silent, or a field with
`hi < lo`, on which R10 is silent (DESIGN CHOICE for both, log 13). -/
def Expr.eval (look : Var → Option Nat) : Expr → Except ExprError Nat
  | .lit n => .ok n
  | .var x => match look x with
    | some n => .ok n
    | none => .error (.unbound x)
  | .bits x hi lo =>
    if hi < lo then .error .noField
    else match look x with
      | some n => .ok (n / 2 ^ lo % 2 ^ (hi + 1 - lo))
      | none => .error (.unbound x)
  | .bin op a b =>
    match a.eval look with
    | .error e => .error e
    | .ok m => match b.eval look with
      | .error e => .error e
      | .ok n => match op.apply m n with
        | some k => .ok k
        | none => .error .noValue

/-- Does the comparison hold? -/
def Rel.holds (r : Rel) (a b : Nat) : Bool :=
  match r with
  | .eq => a = b
  | .ne => a ≠ b
  | .lt => a < b
  | .le => a ≤ b
  | .gt => b < a
  | .ge => b ≤ a

/-- The truth of a condition. -/
def Cond.eval (look : Var → Option Nat) : Cond → Except ExprError Bool
  | .cmp r a b => do return r.holds (← a.eval look) (← b.eval look)

/-! ### Reading a line of text -/

/-- The words of a line. -/
inductive Tok where
  /-- a statement's word, a variable, a list or a label -/
  | word (s : String)
  /-- a mnemonic: a word with a point in it -/
  | mnemonic (s : String)
  /-- a number, decimal or `0x` hexadecimal, or a character in single quotes -/
  | num (n : Nat)
  /-- a text in double quotes -/
  | text (cs : List Char)
  /-- one of the marks `,` `:` `[` `]` `(` `)` -/
  | mark (c : Char)
  /-- an operator -/
  | arith (op : Arith)
  /-- a comparison -/
  | rel (r : Rel)
  /-- `->` -/
  | into
  /-- `<-` -/
  | gets
  /-- `..` -/
  | upto
  deriving DecidableEq, Repr

/-- A character of a name or a number: a letter, a digit or `_`. -/
def isWordChar (c : Char) : Bool := c.isAlphanum || c = '_'

/-- A run of word characters, points between them included, and what follows it. -/
def takeWord : List Char → List Char × List Char
  | [] => ([], [])
  | c :: cs =>
    if isWordChar c || (c = '.' && isWordChar (cs.headD ' ')) then
      let r := takeWord cs
      (c :: r.1, r.2)
    else ([], c :: cs)

/-- The value of a digit in a base up to 16. -/
def digitOf (base : Nat) (c : Char) : Option Nat :=
  let v := if c.isDigit then c.toNat - 48
    else if 'a' ≤ c && c ≤ 'f' then c.toNat - 87
    else if 'A' ≤ c && c ≤ 'F' then c.toNat - 55
    else 16
  if v < base then some v else none

/-- The number a non-empty list of digits spells. -/
def digitsValue (base : Nat) (cs : List Char) : Option Nat :=
  if cs.isEmpty then none
  else cs.foldl (fun acc c => acc.bind fun n => (digitOf base c).map (n * base + ·)) (some 0)

/-- A number's digits: decimal, or hexadecimal after `0x` (spec/30_encoding.md R91). -/
def numberTok (cs : List Char) : Option Tok :=
  match cs with
  | '0' :: 'x' :: ds => (digitsValue 16 ds).map .num
  | _ => (digitsValue 10 cs).map .num

/-- A run of word characters that is no number: an operator's word, a mnemonic, or a word. -/
def wordTok (cs : List Char) : Tok :=
  let s := String.ofList cs
  if s = "mod" then .arith .mod
  else if s = "xor" then .arith .xor
  else if cs.contains '.' then .mnemonic s
  else .word s

/-- The code of a character, if it is one of the 128 that have an ASCII code (spec/30_encoding.md R91). -/
def asciiCode (c : Char) : Option Nat := if c.toNat < 128 then some c.toNat else none

/-- The mark or operator at the front of a text, and what follows it. -/
def signTok : List Char → Option (Tok × List Char)
  | '-' :: '>' :: r => some (.into, r)
  | '<' :: '-' :: r => some (.gets, r)
  | '<' :: '<' :: r => some (.arith .shl, r)
  | '>' :: '>' :: r => some (.arith .shr, r)
  | '<' :: '=' :: r => some (.rel .le, r)
  | '>' :: '=' :: r => some (.rel .ge, r)
  | '!' :: '=' :: r => some (.rel .ne, r)
  | '.' :: '.' :: r => some (.upto, r)
  | '<' :: r => some (.rel .lt, r)
  | '>' :: r => some (.rel .gt, r)
  | '=' :: r => some (.rel .eq, r)
  | '+' :: r => some (.arith .add, r)
  | '-' :: r => some (.arith .sub, r)
  | '*' :: r => some (.arith .mul, r)
  | '/' :: r => some (.arith .div, r)
  | '&' :: r => some (.arith .and, r)
  | '|' :: r => some (.arith .or, r)
  | c :: r => if [',', ':', '[', ']', '(', ')'].contains c then some (.mark c, r) else none
  | [] => none

/-- Cut a line into its words, at most `fuel` of them; `#` begins a remark. A character that begins no word, and a character in
single quotes without an ASCII code, are refused. -/
def lex : Nat → List Char → Option (List Tok)
  | 0, _ => none
  | _ + 1, [] => some []
  | fuel + 1, c :: cs =>
    if c = ' ' || c = '\t' then lex fuel cs
    else if c = '#' then some []
    else if c.isDigit then
      (numberTok ((c :: cs).takeWhile isWordChar)).bind fun t => (lex fuel ((c :: cs).dropWhile isWordChar)).map (t :: ·)
    else if isWordChar c then
      let r := takeWord (c :: cs)
      (lex fuel r.2).map (wordTok r.1 :: ·)
    else match c, cs with
      | '\'', q :: '\'' :: r => (asciiCode q).bind fun n => (lex fuel r).map (.num n :: ·)
      | '"', r =>
        match r.dropWhile (· ≠ '"') with
        | _ :: rest => (lex fuel rest).map (.text (r.takeWhile (· ≠ '"')) :: ·)
        | [] => none
      | _, _ => (signTok (c :: cs)).bind fun t => (lex fuel t.2).map (t.1 :: ·)

/-- The words of the language itself, which name no variable, list or label. -/
def reserved : List String :=
  ["wr", "rd", "wait", "issue", "loop", "while", "if", "end", "for", "in", "out", "chkerr"]

/-- May the word name a variable, a list or a label? -/
def isName (s : String) : Bool := !reserved.contains s

/-- How tightly an operator binds: products, then sums, shifts, `&`, `xor`, and `|` last. -/
def Arith.level : Arith → Nat
  | .or => 0
  | .xor => 1
  | .and => 2
  | .shl | .shr => 3
  | .add | .sub => 4
  | .mul | .div | .mod => 5

/-- A number, a variable, or a field of one, at the front of the words. -/
def atom : List Tok → Option (Expr × List Tok)
  | .num n :: r => some (.lit n, r)
  | .word x :: .mark '[' :: .num i :: .mark ']' :: r => if isName x then some (.bits x i i, r) else none
  | .word x :: .mark '[' :: .num hi :: .mark ':' :: .num lo :: .mark ']' :: r =>
    if isName x && decide (lo ≤ hi) then some (.bits x hi lo, r) else none
  | .word x :: r => if isName x then some (.var x, r) else none
  | _ => none

/-- The expression at the front of the words whose operators bind at least as tightly as `level`, and what follows it; `left` is
its part already read. Operators of one level group from the left. -/
def exprAt : Nat → Nat → Option Expr → List Tok → Option (Expr × List Tok)
  | 0, _, _, _ => none
  | fuel + 1, level, none, ts =>
    if level ≤ 5 then
      match exprAt fuel (level + 1) none ts with
      | some (a, r) => exprAt fuel level (some a) r
      | none => none
    else match ts with
      | .mark '(' :: r =>
        match exprAt fuel 0 none r with
        | some (e, .mark ')' :: r') => some (e, r')
        | _ => none
      | _ => atom ts
  | fuel + 1, level, some a, ts =>
    match ts with
    | .arith op :: r =>
      if op.level = level then
        match exprAt fuel (level + 1) none r with
        | some (b, r') => exprAt fuel level (some (.bin op a b)) r'
        | none => none
      else some (a, ts)
    | _ => some (a, ts)

/-- One operand at the front of the words, with the words after it. -/
def expr (ts : List Tok) : Option (Expr × List Tok) := exprAt (16 * (ts.length + 1)) 0 none ts

/-- The one operand of a command. -/
def one (ts : List Tok) : Option Expr :=
  match expr ts with
  | some (e, []) => some e
  | _ => none

/-- One part of a list at the front of the words. -/
def item (ts : List Tok) : Option (Item × List Tok) :=
  let value := (expr ts).map fun r => (Item.value r.1, r.2)
  match ts with
  | .word x :: .mark '[' :: r =>
    match expr r with
    | some (i, .upto :: r') =>
      match expr r' with
      | some (j, .mark ']' :: rest) => if isName x then some (.slice x i j, rest) else none
      | _ => none
    | _ => value
  | _ => value

/-- Parts separated by commas, at least one, and nothing after them. -/
def separated {α : Type} (part : List Tok → Option (α × List Tok)) : Nat → List Tok → Option (List α)
  | 0, _ => none
  | fuel + 1, ts =>
    match part ts with
    | some (a, []) => some [a]
    | some (a, .mark ',' :: r) => (separated part fuel r).map (a :: ·)
    | _ => none

/-- A condition, and nothing after it. -/
def cond (ts : List Tok) : Option Cond :=
  match expr ts with
  | some (a, .rel r :: rest) => (one rest).map (.cmp r a)
  | _ => none

/-- The digit mapping's name (spec/30_encoding.md R91). -/
def mapName : Tok → Option DigitMap
  | .word "raw" => some .raw
  | .word "ofs" => some .ofs
  | .word "b58" => some .b58
  | _ => none

/-- A command line (spec/30_encoding.md R91). -/
def command (m : String) (ts : List Tok) : Option (AsmCmd Expr) :=
  match m, ts with
  | "sys.nop", [] => some .sysNop
  | "sys.clrerr", [] => some .sysClrerr
  | "sys.srst", [] => some .sysSrst
  | "div.clr", [] => some .divClr
  | "pmd.init", [] => some .pmdInit
  | "pkr.get", [] => some .pkrGet
  | "pkr.flush", [] => some .pkrFlush
  | "pkr.end", [] => some .pkrEnd
  | "pkr.init", [.word "pack"] => some (.pkrInit .pack)
  | "pkr.init", [.word "unpack"] => some (.pkrInit .unpack)
  | "div.shb", _ => (one ts).map .divShb
  | "pmd.sym", _ => (one ts).map .pmdSym
  | "pmd.chr", _ => (one ts).map .pmdChr
  | "pkr.put8", _ => (one ts).map .pkrPut8
  | "pkr.put5", _ => (one ts).map .pkrPut5
  | "div.step", _ =>
    match expr ts with
    | some (d, [.mark ',', t]) => (mapName t).map (.divStep d)
    | _ => none
  | _, _ => none

/-- A pseudo-instruction's line (spec/30_encoding.md R93). `div.load` may have no bytes (DESIGN CHOICE, log 13). -/
def pseudo (m : String) (ts : List Tok) : Option (Pseudo Expr) :=
  match m, ts with
  | "pmd.sep", [] => some .pmdSep
  | "pmd.pad8", [] => some .pmdPad8
  | "pmd.prefix", [.text cs] => (cs.mapM asciiCode).map fun codes => .pmdPrefix (codes.map .lit)
  | "div.load", [] => some (.divLoad [])
  | "div.load", _ => (separated expr (ts.length + 1) ts).map .divLoad
  | "div.b58", [] => some .divB58
  | _, _ => none

/-- A statement's line (spec/30_encoding.md R92). -/
def statement (ts : List Tok) : Option Stmt :=
  match ts with
  | [.word "wait"] => some .wait
  | [.word "end"] => some .close
  | [.word l, .mark ':'] => if isName l then some (.label l) else none
  | [.word "out", .text cs] => some (.outText (String.ofList cs))
  | .word "out" :: r => (one r).map .out
  | .word "loop" :: .word l :: .word "while" :: r => if isName l then (cond r).map (.loop l) else none
  | .word "if" :: r => (cond r).map .ifc
  | .word "for" :: .word x :: .word "in" :: r =>
    if isName x then (separated item (r.length + 1) r).map (.forIn x) else none
  | .word "issue" :: .mnemonic m :: r => (command m r).map .issue
  | .word "wr" :: r =>
    match expr r with
    | some (off, .mark ',' :: v) => (one v).map (.wr off)
    | _ => none
  | .word "rd" :: r =>
    match expr r with
    | some (off, [.into, .word x]) => if isName x then some (.rd off x) else none
    | _ => none
  | .word x :: .gets :: r => if isName x then (one r).map (.set x) else none
  | _ => none

/-- What the words of a line spell: a statement, a command, or a pseudo-instruction (spec/30_encoding.md R94). -/
def readLine (ts : List Tok) : Option Line :=
  match statement ts with
  | some s => some (.stmt s)
  | none =>
    match ts with
    | [.word "chkerr", .into, .word x] => if isName x then some (.chkerr x) else none
    | .mnemonic m :: r =>
      match command m r with
      | some c => some (.cmd c)
      | none => (pseudo m r).map .pseudo
    | _ => none

/-- Every operand of a command replaced, or why one of them could not be. -/
def mapOperands {α β ε : Type} (f : α → Except ε β) : AsmCmd α → Except ε (AsmCmd β)
  | .sysNop => .ok .sysNop
  | .sysClrerr => .ok .sysClrerr
  | .sysSrst => .ok .sysSrst
  | .divClr => .ok .divClr
  | .divShb b => (f b).map .divShb
  | .divStep d m => (f d).map (.divStep · m)
  | .pmdInit => .ok .pmdInit
  | .pmdSym s => (f s).map .pmdSym
  | .pmdChr a => (f a).map .pmdChr
  | .pkrInit d => .ok (.pkrInit d)
  | .pkrPut8 b => (f b).map .pkrPut8
  | .pkrPut5 s => (f s).map .pkrPut5
  | .pkrGet => .ok .pkrGet
  | .pkrFlush => .ok .pkrFlush
  | .pkrEnd => .ok .pkrEnd

/-- An operand's value, if it needs no variable, passes the check; where the host has still to compute it there is nothing to
check yet, so the assembler accepts a variable that nothing binds (DESIGN CHOICE, log 13). -/
def checkKnown {α : Type} (value : Except ExprError α) (check : α → Bool) : Bool :=
  match value with
  | .ok a => check a
  | .error (.unbound _) => true
  | .error _ => false

/-- The value of an expression without variables. -/
def Expr.known : Expr → Except ExprError Nat := Expr.eval fun _ => none

/-- A command's operand, if its value is known, is in range (spec/30_encoding.md R91). -/
def commandInRange (c : AsmCmd Expr) : Bool := checkKnown (mapOperands Expr.known c) AsmCmd.wellFormed

/-- The operands of a line whose values are known are in range, and `div.load` takes at most `nb` bytes (spec/30_encoding.md R91,
R93); a value written is one of 32 bits (spec/20_memory.md R62). -/
def Line.inRange (nb : Nat) : Line → Bool
  | .stmt (.issue c) => commandInRange c
  | .stmt (.wr _ v) => checkKnown v.known (· < 2 ^ 32)
  | .stmt _ => true
  | .cmd c => commandInRange c
  | .pseudo (.divLoad bytes) => bytes.length ≤ nb && (expandWith Expr.lit (.divLoad bytes)).all commandInRange
  | .pseudo p => (expandWith Expr.lit p).all commandInRange
  | .chkerr _ => true

/-- A line the assembler refuses, by its name (its first word) and its number (spec/30_encoding.md R94). -/
structure LineError where
  /-- the line's number, the first line being 1 -/
  line : Nat
  /-- the line's first word; empty if it has none -/
  name : String
  deriving DecidableEq, Repr

/-- The first word of a line's characters. -/
def firstWord (cs : List Char) : String :=
  String.ofList ((cs.dropWhile (fun c => c = ' ' || c = '\t')).takeWhile (fun c => c ≠ ' ' && c ≠ '\t'))

/-! ### Reading a program's text -/

/-- A line cut into its words, with what a refusal of it says. -/
structure Source where
  place : LineError
  toks : List Tok
  deriving DecidableEq, Repr

/-- A line read, with what a refusal of it says. -/
structure Placed where
  place : LineError
  line : Line
  deriving DecidableEq, Repr

/-- The lines of a text cut into words, the first line being number `n`. -/
def lexLines : Nat → List (List Char) → Except LineError (List Source)
  | _, [] => .ok []
  | n, cs :: rest =>
    let place : LineError := ⟨n, firstWord cs⟩
    match lex (cs.length + 1) cs with
    | none => .error place
    | some ts => (lexLines (n + 1) rest).map (⟨place, ts⟩ :: ·)

/-- A line that ends with a comma goes on in the next one, as the first `div.load` of spec/95_test_vectors.md does. -/
def joinLines : List Source → List Source
  | [] => []
  | s :: rest =>
    match joinLines rest with
    | t :: more =>
      if s.toks.getLast? = some (.mark ',') then ⟨s.place, s.toks ++ t.toks⟩ :: more else s :: t :: more
    | [] => [s]

/-- One line: nothing for an empty one, else the line or its refusal (spec/30_encoding.md R94). A label may carry a statement
after it, as the programs of spec/95_test_vectors.md do. -/
def placeLine (nb : Nat) (s : Source) : Except LineError (List Placed) :=
  let place (before : List Placed) (ts : List Tok) : Except LineError (List Placed) :=
    match readLine ts with
    | some l => if l.inRange nb then .ok (before ++ [⟨s.place, l⟩]) else .error s.place
    | none => .error s.place
  match s.toks with
  | [] => .ok []
  | .word l :: .mark ':' :: t :: r => if isName l then place [⟨s.place, .stmt (.label l)⟩] (t :: r) else .error s.place
  | ts => place [] ts

/-- The first line at which the blocks of `if` and `for` do not match: an `end` that closes none, or one that no `end` closes;
`stack` holds the ones open, the innermost first. -/
def unmatchedBlock : List LineError → List Placed → Option LineError
  | stack, [] => stack.head?
  | stack, p :: ps =>
    match p.line with
    | .stmt (.ifc _) | .stmt (.forIn _ _) => unmatchedBlock (p.place :: stack) ps
    | .stmt .close =>
      match stack with
      | [] => some p.place
      | _ :: outer => unmatchedBlock outer ps
    | _ => unmatchedBlock stack ps

/-- The label a line defines. -/
def Placed.label? (p : Placed) : Option String :=
  match p.line with
  | .stmt (.label l) => some l
  | _ => none

/-- The first line that goes back to a label the program does not have, or that defines a label again: on the latter the spec is
silent (DESIGN CHOICE, log 13). A label may stand after its `loop`, and in another block: every label of the program counts, and on
both the spec is silent too (DESIGN CHOICE, log 13). `labels` are all the program's, `seen` those defined so far. -/
def badLabel (labels : List String) : List String → List Placed → Option LineError
  | _, [] => none
  | seen, p :: ps =>
    match p.line with
    | .stmt (.loop l _) => if labels.contains l then badLabel labels seen ps else some p.place
    | .stmt (.label l) => if seen.contains l then some p.place else badLabel labels (l :: seen) ps
    | _ => badLabel labels seen ps

/-- A program's text: its lines, or the first refusal by name and line: of a line that spells nothing of the language, else of a
block that does not match, else of a label (spec/30_encoding.md R94). -/
def assembleText (nb : Nat) (text : List (List Char)) : Except LineError (List Line) := do
  let placed := (← (joinLines (← lexLines 1 text)).mapM (placeLine nb)).flatten
  match (unmatchedBlock [] placed).orElse fun _ => badLabel (placed.filterMap Placed.label?) [] placed with
  | some e => .error e
  | none => .ok (placed.map Placed.line)

end Sys2Proof.Asm
end

