-- ==== Sys2Proof/Machine/HostProgram.lean ====
section
/-!
DEFINITION. A host that runs a program of statements (spec/30_encoding.md R92) against the block. "Host variables, host
arithmetic and host control flow belong to the host, not to the block; the block sees only the resulting bus accesses in order":
every statement that touches the block does so through one step of the machine per access, and the machine itself knows nothing
of this file. The command latency stays open: a schedule of Booleans says, access by access, whether the block takes its turn
before the access; when it is used up the block always does (spec/00_scope.md R8, spec/70_reset_and_hazards.md R205).
-/
namespace Sys2Proof.Asm

/-- What the host appends to its output list. -/
inductive Output where
  | value (n : Nat)
  | text (s : String)
  deriving DecidableEq, Repr

/-- The host between two statements. -/
structure HostState where
  /-- the index of the next statement -/
  pc : Nat
  /-- the host's variables, the newest binding of a name first -/
  vars : List (Var × Nat)
  /-- the lists the host is given, by name: the bytes or symbols a program works on (spec/30_encoding.md R92 "the host's list") -/
  lists : List (Var × List Nat)
  /-- for each `for` statement entered, by its index: the elements still to come -/
  loops : List (Nat × List Nat)
  /-- the host's output list, in order -/
  output : List Output
  /-- the schedule: does the block take its turn before the next access? -/
  schedule : List Bool
  /-- the block and its bus -/
  mach : Machine.State
  deriving DecidableEq, Repr

/-- Why a host program stops short: none of these is behaviour of the block. -/
inductive HostStop where
  /-- an expression without a value -/
  | expr (e : ExprError)
  /-- a run of elements that a list does not have, or of a list the host does not have -/
  | noElements (x : Var)
  /-- a computed operand outside its range (spec/30_encoding.md R91) -/
  | operandRange
  /-- a `loop` to a label the program does not have -/
  | noLabel (l : String)
  /-- an `if`, a `for` or an `end` without its partner -/
  | unmatched
  /-- the machine stopped with a fault -/
  | fault (f : Machine.Fault)
  /-- the machine refused an access -/
  | refused (r : Machine.Refusal)
  deriving DecidableEq, Repr

/-- The value of a variable. -/
def HostState.lookup (h : HostState) (x : Var) : Option Nat := (h.vars.find? (·.1 = x)).map (·.2)

/-- The variable `x` bound to `n`. -/
def HostState.bind (h : HostState) (x : Var) (n : Nat) : HostState := { h with vars := (x, n) :: h.vars }

/-- `out x`: append to the host's output list (spec/30_encoding.md R92). -/
def HostState.append (h : HostState) (o : Output) : HostState := { h with output := h.output ++ [o] }

/-- The host goes on with the next statement. -/
def HostState.advance (h : HostState) : HostState := { h with pc := h.pc + 1 }

/-- A computed value, or why the host stops. -/
def orStop {α : Type} : Except ExprError α → Except HostStop α
  | .ok a => .ok a
  | .error e => .error (.expr e)

/-- The value of an expression. -/
def HostState.eval (h : HostState) (e : Expr) : Except HostStop Nat := orStop (e.eval h.lookup)

/-- The truth of a condition. -/
def HostState.test (h : HostState) (c : Cond) : Except HostStop Bool := orStop (c.eval h.lookup)

/-- The host's list of a name. -/
def HostState.list? (h : HostState) (x : Var) : Option (List Nat) := (h.lists.find? (·.1 = x)).map (·.2)

/-- The elements of one part of a list. -/
def Item.elements (h : HostState) : Item → Except HostStop (List Nat)
  | .value e =>
    match e with
    | .var x =>
      match h.list? x with
      | some ns => .ok ns
      | none => (h.eval e).map fun n => [n]
    | _ => (h.eval e).map fun n => [n]
  | .slice x i j =>
    match h.list? x with
    | none => .error (.noElements x)
    | some ns => do
      let first ← h.eval i
      let last ← h.eval j
      if first ≤ last && last < ns.length then .ok ((ns.drop first).take (last + 1 - first)) else .error (.noElements x)

/-- The machine's steps until its agenda is empty, at most `n` of them. -/
def runAgenda : Nat → Machine.State → Except HostStop Machine.State
  | 0, s => .ok s
  | n + 1, s =>
    if s.agenda.isEmpty then .ok s
    else match Machine.step s with
      | .next t => runAgenda n t
      | .fault f => .error (.fault f)
      | .refused r => .error (.refused r)

/-- One host access, the block taking its turn before it if the schedule says so or is used up. The host owns the agenda. -/
def HostState.access (h : HostState) (e : Machine.Event) : Except HostStop HostState :=
  let events := if h.schedule.headD true then [.blockTurn, e] else [e]
  match runAgenda events.length { h.mach with agenda := events } with
  | .ok m => .ok { h with mach := m, schedule := h.schedule.tail }
  | .error x => .error x

/-- `MemRead(off, 4)` at an offset of the window (spec/20_memory.md R64), and the value it returned. -/
def HostState.memRead (h : HostState) (off : Nat) : Except HostStop (Nat × HostState) :=
  match h.access (.read (h.mach.base + off) 4) with
  | .ok h' => .ok ((h'.mach.reads.headD 0#32).toNat, h')
  | .error x => .error x

/-- `MemWrite(off, 4, v)` at an offset of the window (spec/20_memory.md R65); the bus carries 32 bits (R62). -/
def HostState.memWrite (h : HostState) (off v : Nat) : Except HostStop HostState :=
  if v < 2 ^ 32 then h.access (.write (h.mach.base + off) 4 (BitVec.ofNat 32 v)) else .error .operandRange

/-- The operands of a command evaluated. -/
def evalCommand (h : HostState) (c : AsmCmd Expr) : Except HostStop (AsmCmd Nat) := mapOperands h.eval c

/-- Does the statement open a block? -/
def Stmt.opens : Stmt → Bool
  | .ifc _ | .forIn _ _ => true
  | _ => false

/-- The number of statements from the front of `prog` up to the `end` that closes `depth` open blocks. -/
def closeAt : Nat → List Stmt → Option Nat
  | _, [] => none
  | depth, s :: rest =>
    if s.opens then (closeAt (depth + 1) rest).map (· + 1)
    else if s = .close then
      match depth with
      | 0 => some 0
      | d + 1 => (closeAt d rest).map (· + 1)
    else (closeAt depth rest).map (· + 1)

/-- The index of the `end` that closes the block opened at `i`. -/
def blockEnd (prog : List Stmt) (i : Nat) : Option Nat := (closeAt 0 (prog.drop (i + 1))).map (· + i + 1)

/-- The index of the statement that opened the block closed at `j`. -/
def blockStart (prog : List Stmt) (j : Nat) : Option Nat :=
  (List.range j).reverse.find? fun i =>
    ((prog[i]?).map Stmt.opens).getD false && blockEnd prog i == some j

/-- The index of a label, wherever it stands: the first one, should a program that no assembler has read define it twice; and if it
stands after its `loop`, the host goes forward to it (DESIGN CHOICE for both, log 13). -/
def labelAt (prog : List Stmt) (l : String) : Option Nat := prog.findIdx? (fun s => s = .label l)

/-- `for x in list` goes round with the next element, or past the loop if none is left (spec/30_encoding.md R92). -/
def HostState.nextElement (h : HostState) (start stop : Nat) (x : Var) : List Nat → HostState
  | [] => { h with pc := stop + 1 }
  | n :: rest => { (h.bind x n) with pc := start + 1, loops := (start, rest) :: h.loops }

/-- The elements still to come of the loop opened at `i`; none if it has not been entered, as when a `loop` has gone to a label
inside it (DESIGN CHOICE, log 13). -/
def HostState.remaining (h : HostState) (i : Nat) : List Nat := ((h.loops.find? (·.1 = i)).map (·.2)).getD []

/-- One statement (spec/30_encoding.md R92). `wait` repeats `rd 0x00C -> t` until
`t[0] = 0`: one read at a time, the host staying at it until the read shows BUSY = 0. A `loop` goes to
its label without regard to blocks, on which the spec is silent: into one without its `if` or `for`, whose `end` then does what it
does after the block's last statement, and out of one without its `end` (DESIGN CHOICE, log 13). -/
def Stmt.run (prog : List Stmt) (h : HostState) : Stmt → Except HostStop HostState
  | .wr off v => do
    let h' ← h.memWrite (← h.eval off) (← h.eval v)
    return h'.advance
  | .rd off x => do
    let r ← h.memRead (← h.eval off)
    return (r.2.bind x r.1).advance
  | .wait => do
    let r ← h.memRead 0x00C
    let h' := r.2.bind "t" r.1
    return if r.1 % 2 = 0 then h'.advance else h'
  | .issue c => do
    match assemble (← evalCommand h c) with
    | some i =>
      let h' ← h.memWrite 0x010 (encode i).toNat
      return h'.advance
    | none => .error .operandRange
  | .label _ => .ok h.advance
  | .loop l c => do
    if ← h.test c then
      match labelAt prog l with
      | some i => return { h with pc := i }
      | none => .error (.noLabel l)
    else return h.advance
  | .ifc c => do
    if ← h.test c then return h.advance
    else match blockEnd prog h.pc with
      | some j => return { h with pc := j + 1 }
      | none => .error .unmatched
  | .forIn x xs => do
    let parts ← xs.mapM (Item.elements h)
    match blockEnd prog h.pc with
    | some j => return h.nextElement h.pc j x parts.flatten
    | none => .error .unmatched
  | .close =>
    match blockStart prog h.pc with
    | some i =>
      match prog[i]? with
      | some (.forIn x _) => .ok (h.nextElement i h.pc x (h.remaining i))
      | _ => .ok h.advance
    | none => .error .unmatched
  | .out e => do
    let n ← h.eval e
    return (h.append (.value n)).advance
  | .outText s => .ok (h.append (.text s)).advance
  | .set x e => do
    let n ← h.eval e
    return (h.bind x n).advance

/-- The statements of a program's lines (spec/30_encoding.md R92, R93). -/
def expandProgram (lines : List Line) : List Stmt := lines.flatMap Line.expand

/-- At most `fuel` statements of a program: the host when the program ends or the fuel does. -/
def runProgram (prog : List Stmt) : Nat → HostState → Except HostStop HostState
  | 0, h => .ok h
  | fuel + 1, h =>
    match prog[h.pc]? with
    | none => .ok h
    | some s =>
      match s.run prog h with
      | .ok h' => runProgram prog fuel h'
      | .error x => .error x

/-- A host at the start of its program, with its lists, before a machine. -/
def HostState.start (m : Machine.State) (lists : List (Var × List Nat)) (schedule : List Bool) : HostState :=
  { pc := 0, vars := [], lists := lists, loops := [], output := [], schedule := schedule, mach := m }

end Sys2Proof.Asm
end

