-- ==== Sys2Proof/Safety.lean ====
section
/-!
DEFINITION. What counts as a legal state and a safe run, in the terms the statements use: the invariants the spec says a model
may assert (spec/10_state.md R35), the invariant of a command in flight, and the host agendas that make only accesses the spec
specifies (spec/20_memory.md R62, R63).
-/
namespace Sys2Proof.Machine

/-- The invariants of spec/10_state.md R35 (those of its bounds that are not the widths themselves): `PCNT <= 12`,
`PACC < 2^PCNT`, `ERRCODE = 0` exactly when `ERR = 0`, `DVD < 2^(8*NB)`, that is `256^NB`; with them, that ERRCODE is one of the
codes 0 to 10 (spec/60_exceptions.md R157, U11), that POUT is a symbol in PACK (spec/10_state.md R30), and that NB is one of the
values the parameter may take (spec/00_scope.md R4). -/
abbrev Inv (s : State) : Prop :=
  s.pcnt.toNat ≤ 12 ∧ s.pacc.toNat < 2 ^ s.pcnt.toNat ∧ (s.errcode = 0#4 ↔ s.err = false) ∧ s.errcode.toNat ≤ 10 ∧
    (s.pdir = .pack → s.pout.toNat < 32) ∧ Config.LegalNB s.nb ∧ s.dvd < 256 ^ s.nb

/-- A command in flight under ERR = 1 was accepted before an OVERRUN was latched, or is SYS.CLRERR or SYS.SRST
(spec/20_memory.md R69 to R71, spec/60_exceptions.md R158, R163). -/
abbrev InFlight (s : State) : Prop :=
  s.busy = true → s.err = true →
    s.errcode = ErrCode.overrun.code ∨ s.pend = 0x00000001#32 ∨ s.pend = 0x00000002#32

/-- An event that the spec specifies: every event but an access that reaches the window and is not a 32-bit access at a
multiple-of-4 offset (spec/20_memory.md R62, R63). -/
def Event.specified (base : Nat) : Event → Bool
  | .read addr size => reach base addr size ≠ .unspecified
  | .write addr size _ => reach base addr size ≠ .unspecified
  | .blockTurn | .rstAssert | .rstRelease => true

/-- Every event of the agenda is specified. -/
abbrev Specified (s : State) : Prop := s.agenda.all (Event.specified s.base) = true

/-- The reset input is not asserted and the agenda does not assert it. -/
abbrev NoReset (s : State) : Prop := s.rst = false ∧ Event.rstAssert ∉ s.agenda

/-! ### What a frame keeps -/

/-- The bus side is unchanged: BUSY, PEND, the reset input, the agenda, the values read, the draws, and the
parameters BASE and NB. -/
abbrev BusKept (s t : State) : Prop :=
  t.busy = s.busy ∧ t.pend = s.pend ∧ t.rst = s.rst ∧ t.agenda = s.agenda ∧ t.reads = s.reads ∧ t.draws = s.draws ∧
    t.base = s.base ∧ t.nb = s.nb

/-- The divider's registers DVD, REM and DIGIT are unchanged. -/
abbrev DividerKept (s t : State) : Prop := t.dvd = s.dvd ∧ t.rem = s.rem ∧ t.digit = s.digit

/-- The packer's registers PACC, PCNT, PDIR and POUT are unchanged. -/
abbrev PackerKept (s t : State) : Prop := t.pacc = s.pacc ∧ t.pcnt = s.pcnt ∧ t.pdir = s.pdir ∧ t.pout = s.pout

/-- The error latch is unchanged. -/
abbrev LatchKept (s t : State) : Prop := t.err = s.err ∧ t.errcode = s.errcode

/-- The error latch is unchanged, or was clear and now holds one of the given errors. -/
abbrev LatchOnly (errors : List ErrCode) (s t : State) : Prop :=
  LatchKept s t ∨ (s.err = false ∧ t.err = true ∧ ∃ e ∈ errors, t.errcode = e.code)

end Sys2Proof.Machine
end

