-- ==== Sys2Proof/Certificates/Slice0/Obligations.lean ====
section
/-! DEFINITION. The statements for the provers: what the rules of spec/ say the commands, the bus, the error latch and the reset
do, and the invariants and regroupings that follow. The docstring of each names the rules it formalises. -/

open Sys2Proof Sys2Proof.Machine

/-! ### Encoding -/

/-- Every command's word decodes to that command, with every operand at every value (30_encoding.md R86 to R88). -/
def Obligations.DecodeOfEncodeIsTheCommand : Prop := ∀ i : Instr, decode (encode i) = .ok i

/-- A word that decodes is exactly the word of the command it decodes to: no bit of it is dropped (R85, R88, R89). -/
def Obligations.EncodeOfDecodeIsTheWord : Prop := ∀ (w : Word) (i : Instr), decode w = .ok i → encode i = w

/-- Words of each family, written out from the tables, decode to the commands they stand for (R91; the words are those of
95_test_vectors.md). -/
def Obligations.SampleWordsDecodeAsWritten : Prop :=
  decode 0x00000001#32 = .ok .sysClrerr ∧ decode 0x00083A12#32 = .ok (.divStep 58#9 .b58) ∧
  decode 0x00010012#32 = .ok (.divStep 256#9 .raw) ∧ decode 0x00007611#32 = .ok (.divShb 0x76#8) ∧
  decode 0x00001F21#32 = .ok (.pmdSym 31#5) ∧ decode 0x00006222#32 = .ok (.pmdChr 0x62#8) ∧
  decode 0x00000130#32 = .ok (.pkrInit .unpack) ∧ decode 0x0000A531#32 = .ok (.pkrPut8 0xA5#8) ∧
  decode 0x000C3A12#32 = .error .illegalMap ∧ decode 0x00023A12#32 = .error .reservedBitSet ∧
  decode 0x00000003#32 = .error .unassignedOpcode

/-- R88: a word is a command exactly when its opcode is assigned, its format's reserved bits are zero, and, for DIV.STEP, MAP
is not 3; the command is the one the table gives the opcode; a word that is none completes as ILLEGAL_CMD and changes nothing
else. The table is R88's, with the reserved masks of R86. -/
def Obligations.WordIsCommandExactlyByTheTable : Prop :=
  let table : List (Byte × Opcode × Word) :=
    [(0x00#8, .sysNop, 0xFFFFFF00#32), (0x01#8, .sysClrerr, 0xFFFFFF00#32), (0x02#8, .sysSrst, 0xFFFFFF00#32),
     (0x10#8, .divClr, 0xFFFFFF00#32), (0x11#8, .divShb, 0xFFFF0000#32), (0x12#8, .divStep, 0xFFF20000#32),
     (0x20#8, .pmdInit, 0xFFFFFF00#32), (0x21#8, .pmdSym, 0xFFFFE000#32), (0x22#8, .pmdChr, 0xFFFF0000#32),
     (0x30#8, .pkrInit, 0xFFFFFE00#32), (0x31#8, .pkrPut8, 0xFFFF0000#32), (0x32#8, .pkrPut5, 0xFFFFE000#32),
     (0x33#8, .pkrGet, 0xFFFFFF00#32), (0x34#8, .pkrFlush, 0xFFFFFF00#32), (0x35#8, .pkrEnd, 0xFFFFFF00#32)]
  (∀ w : Word, (∃ i, decode w = .ok i) ↔
    ∃ r ∈ table, opcField w = r.1 ∧ w &&& r.2.2 = 0#32 ∧ (r.2.1 = .divStep → mapField w ≠ 3#2)) ∧
  (∀ (w : Word) (i : Instr), decode w = .ok i → ∃ r ∈ table, opcField w = r.1 ∧ i.opcode = r.2.1) ∧
  (∀ s : State, (∀ i, decode s.pend ≠ .ok i) →
    complete s = .next (if s.err then { s with busy := false }
      else { s with busy := false, err := true, errcode := 1#4 }))

/-- R89: the unassigned opcodes are 0x03 to 0x0F, 0x13 to 0x1F, 0x23 to 0x2F and 0x36 to 0xFF, 241 of them; a word with one of
them is no command, and completing it latches ILLEGAL_CMD. -/
def Obligations.UnassignedOpcodesAreIllegal : Prop :=
  let unassigned (n : Nat) : Prop :=
    (0x03 ≤ n ∧ n ≤ 0x0F) ∨ (0x13 ≤ n ∧ n ≤ 0x1F) ∨ (0x23 ≤ n ∧ n ≤ 0x2F) ∨ (0x36 ≤ n ∧ n ≤ 0xFF)
  (∀ w : Word, decode w = .error .unassignedOpcode ↔ unassigned (opcField w).toNat) ∧
  ((List.range 256).filter fun n => (Opcode.ofByte (BitVec.ofNat 8 n)).isNone).length = 241 ∧
  (∀ s : State, unassigned (opcField s.pend).toNat → s.err = false →
    complete s = .next { s with busy := false, err := true, errcode := 1#4 })

/-- The assembler gives a command its operands as written when they are in range, and refuses it otherwise (R91). -/
def Obligations.AssemblerRefusesRatherThanTruncates : Prop :=
  ∀ c : AsmCmd Nat,
    (c.wellFormed = true → ∃ i, Asm.assemble c = some i ∧ i.toAsm = c) ∧ (c.wellFormed = false → Asm.assemble c = none)

/-- The pseudo-instructions' expansions, and the bound on `div.load`, for every NB (30_encoding.md R93). That `div.load` with no
bytes is accepted, and is `div.clr` alone, is the model's choice (log 13). -/
def Obligations.PseudoInstructionsExpandAsListed : Prop :=
  ∀ nb : Nat,
  Asm.assemblePseudo nb .pmdSep = some [.pmdSym 0#5] ∧
  Asm.assemblePseudo nb .pmdPad8 = some (List.replicate 8 (.pmdSym 0#5)) ∧
  (∀ codes : List Byte, Asm.assemblePseudo nb (.pmdPrefix (codes.map BitVec.toNat)) =
    some (codes.map .pmdChr ++ [.pmdSym 0#5])) ∧
  (∀ bytes : List Byte, Asm.assemblePseudo nb (.divLoad (bytes.map BitVec.toNat)) =
    if bytes.length ≤ nb then some (.divClr :: bytes.map .divShb) else none) ∧
  Asm.assemblePseudo nb .divB58 = some [.divStep 58#9 .b58] ∧
  (∀ x, (Asm.Line.chkerr x).expand = [.rd (.lit 0x00C) "t", .set x (.bits "t" 11 8)])

/-! ### The step and the commands in flight -/

/-- At the block's turn, with RST released and a command in flight that decodes to `i`, a step is `exec i` with the event taken
off and BUSY fallen (20_memory.md R72). -/
def Obligations.StepRunsTheDecodedCommand : Prop :=
  ∀ (s : State) (i : Instr), s.rst = false → s.busy = true → nextEvent s = .blockTurn → decode s.pend = .ok i →
    step s = exec i { s with agenda := s.agenda.tail, busy := false }

/-- `issue` then `wait` with nothing in between is `command`: two steps of the machine, the write to CMD and the block's turn
(30_encoding.md R92, 20_memory.md R69, R70, R72). -/
def Obligations.IssueThenWaitIsCommand : Prop :=
  ∀ (s : State) (i : Instr), s.rst = false → s.busy = false → s.agenda = [] →
    Sys2Proof.core.run 2 { s with agenda := [.write (s.base + 0x010) 4 (encode i), .blockTurn] } = command i s

/-- R69 and R70: a write to CMD while BUSY = 0 is accepted when ERR = 0, or when ERR = 1 and the word is exactly that of
SYS.CLRERR or SYS.SRST; acceptance sets PEND and BUSY and nothing else. With ERR = 1 every other word is ignored. -/
def Obligations.ErrGatesCommandWords : Prop :=
  ∀ (s : State) (w : Word), s.rst = false → s.busy = false → nextEvent s = .write (s.base + 0x010) 4 w →
    ((s.err = false ∨ w = 0x00000001#32 ∨ w = 0x00000002#32) →
      step s = .next { s with agenda := s.agenda.tail, pend := w, busy := true }) ∧
    (s.err = true → w ≠ 0x00000001#32 → w ≠ 0x00000002#32 → step s = .next { s with agenda := s.agenda.tail })

/-- R158: a host write to CMD, CTRL or a DVD word while BUSY = 1 latches OVERRUN (10) if ERR = 0, and does nothing else. -/
def Obligations.WritesUnderBusyLatchOverrun : Prop :=
  ∀ (s : State) (off : Nat) (v : Word), Config.LegalNB s.nb → s.rst = false → s.busy = true →
    (off = 0x010 ∨ off = 0x008 ∨ ∃ k, k < s.nb / 4 ∧ off = 0x080 + 4 * k) → nextEvent s = .write (s.base + off) 4 v →
    step s = .next (if s.err then { s with agenda := s.agenda.tail }
      else { s with agenda := s.agenda.tail, err := true, errcode := 10#4 })

/-- No command can hang the block (20_memory.md R72, 70_reset_and_hazards.md R205). The agenda is the model's own, and that
with an empty agenda the next event is the block's turn is the model's choice (log 1): under an agenda of specified events
that does not assert RST, a command in flight has completed after at most one step more than the agenda is long. -/
def Obligations.CommandInFlightCompletesWithinTheAgenda : Prop :=
  ∀ s : State, Inv s → Specified s → NoReset s → s.busy = true →
    ∃ k t, k ≤ s.agenda.length + 1 ∧ Sys2Proof.core.run k s = .next t ∧ t.busy = false

/-! ### The bus -/

/-- R73 and R74, for every NB: with BUSY = 0 and whatever the value of ERR, a DVD word write replaces slice `k` of DVD, and
changes no other bit of DVD and no other state; a CTRL write puts its low byte into OFS and ignores the rest. -/
def Obligations.DataWritesChangeOneField : Prop :=
  (∀ (s : State) (k : Nat) (v : Word), Config.LegalNB s.nb → s.rst = false → s.busy = false → k < s.nb / 4 →
    nextEvent s = .write (s.base + (0x080 + 4 * k)) 4 v →
    ∃ d : Nat, step s = .next { s with agenda := s.agenda.tail, dvd := d } ∧
      (s.dvd < 2 ^ (8 * s.nb) → d < 2 ^ (8 * s.nb)) ∧
      ∀ b, d.testBit b =
        if 8 * s.nb - 32 - 32 * k ≤ b ∧ b ≤ 8 * s.nb - 1 - 32 * k then v.getLsbD (b - (8 * s.nb - 32 - 32 * k))
        else s.dvd.testBit b) ∧
  (∀ (s : State) (v : Word), s.rst = false → s.busy = false → nextEvent s = .write (s.base + 0x008) 4 v →
    step s = .next { s with agenda := s.agenda.tail, ofs := v.extractLsb' 0 8 })

/-- R66: a write to a read-only register or a reserved offset is ignored, whatever BUSY, ERR and the value written. -/
def Obligations.ReadOnlyWritesAreIgnored : Prop :=
  ∀ (s : State) (off : Nat) (v : Word), off % 4 = 0 → off < 256 → off ≠ 0x008 → off ≠ 0x010 →
    ¬(0x080 ≤ off ∧ off < 0x080 + s.nb) → nextEvent s = .write (s.base + off) 4 v →
    step s = .next { s with agenda := s.agenda.tail }

/-- An access that reaches the window and is not a 32-bit access at a multiple-of-4 offset is refused (20_memory.md R63, U2); a
write outside the window changes nothing, and a read there returns some value and changes nothing of the block (R67). That an
access which straddles an end of the window is one of those refused, and that they are refused under RST too, are the model's
choices (log 5); the count of draws that a read outside advances is the model's own (log 4). -/
def Obligations.AccessesOffTheMapStopOrPassBy : Prop :=
  (∀ (s : State) (addr size : Nat), s.base < addr + size → addr < s.base + 256 →
    ¬(size = 4 ∧ s.base ≤ addr ∧ (addr - s.base) % 4 = 0) →
    (nextEvent s = .read addr size → step s = .refused .unspecifiedAccess) ∧
    (∀ v, nextEvent s = .write addr size v → step s = .refused .unspecifiedAccess)) ∧
  (∀ (s : State) (addr size : Nat), (addr + size ≤ s.base ∨ s.base + 256 ≤ addr) →
    (nextEvent s = .read addr size → ∃ v, step s =
      .next { s with agenda := s.agenda.tail, reads := v :: s.reads, draws := s.draws + 1 }) ∧
    (∀ v, nextEvent s = .write addr size v → step s = .next { s with agenda := s.agenda.tail }))

/-- R68: a read changes no state of the block, and two reads of one register in a row return the same value while BUSY = 0 and
RST is released. -/
def Obligations.ReadsHaveNoSideEffects : Prop :=
  (∀ (s t : State) (addr size : Nat), nextEvent s = .read addr size → step s = .next t →
    t = { s with agenda := s.agenda.tail, reads := t.reads, draws := t.draws }) ∧
  (∀ (s : State) (off : Nat), Inv s → s.rst = false → s.busy = false → off % 4 = 0 → off < 256 →
    ∃ v, Sys2Proof.core.run 2 { s with agenda := [.read (s.base + off) 4, .read (s.base + off) 4] } =
      .next { s with agenda := [], reads := v :: v :: s.reads })

/-- What the constant, control, divider and reserved offsets read while BUSY = 0 (10_state.md R37, R38, R39, R45, R46, R47, R53,
R54), for every NB. -/
def Obligations.ControlAndDividerRegistersRead : Prop :=
  ∀ (s : State) (off : Nat), Config.LegalNB s.nb → s.rst = false → s.busy = false →
    nextEvent s = .read (s.base + off) 4 →
    let shows (v : Word) : Prop := step s = .next { s with agenda := s.agenda.tail, reads := v :: s.reads }
    (off = 0x000 → shows 0x43414231#32) ∧ (off = 0x004 → shows (BitVec.ofNat 32 (12 * 2 ^ 8 + s.nb))) ∧
    (off = 0x008 → shows (s.ofs.setWidth 32)) ∧ (off = 0x010 → shows 0#32) ∧
    (off = 0x014 → shows (s.rem.setWidth 32)) ∧ (off = 0x018 → shows (s.digit.setWidth 32)) ∧
    (∀ k, k < s.nb / 4 → off = 0x080 + 4 * k → shows (BitVec.ofNat 32 (s.dvd / 2 ^ (8 * s.nb - 32 - 32 * k)))) ∧
    (off = 0x01C ∨ off = 0x038 ∨ off = 0x03C ∨ (0x060 ≤ off ∧ off < 0x080 ∧ off % 4 = 0) ∨
      (0x080 + s.nb ≤ off ∧ off < 0x100 ∧ off % 4 = 0) → shows 0#32)

/-- What the polymod and packer offsets read while BUSY = 0 (10_state.md R48 to R52). -/
def Obligations.PolymodAndPackerRegistersRead : Prop :=
  ∀ (s : State) (off : Nat), s.rst = false → s.busy = false → nextEvent s = .read (s.base + off) 4 →
    let shows (n : Nat) : Prop :=
      step s = .next { s with agenda := s.agenda.tail, reads := BitVec.ofNat 32 n :: s.reads }
    let result := (s.c ^^^ 1#40).toNat
    (off = 0x020 → shows (s.c.toNat % 2 ^ 32)) ∧ (off = 0x024 → shows (s.c.toNat / 2 ^ 32)) ∧
    (off = 0x028 → shows (result % 2 ^ 32)) ∧ (off = 0x02C → shows (result / 2 ^ 32)) ∧
    (off = 0x030 → shows (s.pacc.toNat * 2 ^ 16 + (if s.pdir = .pack then 0 else 2 ^ 8) + s.pcnt.toNat)) ∧
    (off = 0x034 → shows s.pout.toNat) ∧
    (∀ i, i < 8 → off = 0x040 + 4 * i → shows (result / 2 ^ (35 - 5 * i) % 32))

/-- What STATUS reads while BUSY = 0: the flags, each by its rule, at their bits, and 0 elsewhere (10_state.md R40 to R44). -/
def Obligations.StatusShowsTheFlags : Prop :=
  ∀ s : State, s.rst = false → s.busy = false → s.errcode.toNat ≤ 10 → nextEvent s = .read (s.base + 0x00C) 4 →
    ∃ v : Word, step s = .next { s with agenda := s.agenda.tail, reads := v :: s.reads } ∧
      v.getLsbD 0 = false ∧ v.getLsbD 1 = s.err ∧ (v.getLsbD 2 = true ↔ s.dvd = 0) ∧
      (v.getLsbD 3 = true ↔ s.c = 1#40) ∧
      (v.getLsbD 4 = true ↔ (s.pdir = .pack ∧ 5 ≤ s.pcnt.toNat) ∨ (s.pdir = .unpack ∧ 8 ≤ s.pcnt.toNat)) ∧
      (v.getLsbD 5 = true ↔ s.pacc = 0#12) ∧ v.extractLsb' 6 2 = 0#2 ∧ v.extractLsb' 8 4 = s.errcode ∧
      v.extractLsb' 12 20 = 0#20

/-- R9: while BUSY = 1, ID, CFG and CTRL read their true values and STATUS shows BUSY; what every other register reads is a free
draw, here only some value: nothing else of the state changes. -/
def Obligations.ReadsUnderBusy : Prop :=
  ∀ (s : State) (off : Nat), s.rst = false → s.busy = true → off % 4 = 0 → off < 256 →
    nextEvent s = .read (s.base + off) 4 →
    (off = 0x000 → step s = .next { s with agenda := s.agenda.tail, reads := 0x43414231#32 :: s.reads }) ∧
    (off = 0x004 → step s = .next { s with agenda := s.agenda.tail, reads := BitVec.ofNat 32 (12 * 2 ^ 8 + s.nb) :: s.reads }) ∧
    (off = 0x008 → step s = .next { s with agenda := s.agenda.tail, reads := s.ofs.setWidth 32 :: s.reads }) ∧
    (∃ (v : Word) (n : Nat), step s = .next { s with agenda := s.agenda.tail, reads := v :: s.reads, draws := n } ∧
      (off = 0x00C → v.getLsbD 0 = true))

/-! ### The control commands -/

/-- R150: SYS.NOP changes nothing; its one word is 0x00000000; under ERR = 1 it is not accepted. -/
def Obligations.SysNopChangesNothing : Prop :=
  decode 0x00000000#32 = .ok .sysNop ∧
  (∀ w : Word, opcField w = 0x00#8 → w ≠ 0x00000000#32 → decode w = .error .reservedBitSet) ∧
  (∀ s : State, exec .sysNop s = .next s) ∧
  (∀ s : State, s.err = true → regWrite .cmd 0x00000000#32 s = s) ∧
  (∀ s : State, s.busy = false → s.err = false →
    regWrite .cmd 0x00000000#32 s = { s with pend := 0#32, busy := true } ∧
    complete { s with pend := 0#32, busy := true } = .next { s with pend := 0#32 })

/-- R151: SYS.CLRERR clears the latch and changes no unit state; a word with its opcode and a reserved bit set is ignored under
ERR = 1 and latches ILLEGAL_CMD under ERR = 0. -/
def Obligations.SysClrerrClearsTheLatch : Prop :=
  decode 0x00000001#32 = .ok .sysClrerr ∧ (∀ s : State, exec .sysClrerr s = .next { s with err := false, errcode := 0#4 }) ∧
  (∀ s : State, Inv s → s.err = false → exec .sysClrerr s = .next s) ∧
  (∀ (w : Word) (s : State), opcField w = 0x01#8 → w ≠ 0x00000001#32 → s.busy = false →
    (s.err = true → regWrite .cmd w s = s) ∧
    (s.err = false → regWrite .cmd w s = { s with pend := w, busy := true } ∧
      complete { s with pend := w, busy := true } = .next { s with pend := w, err := true, errcode := 1#4 }))

/-- R152: SYS.SRST gives every state element of the block its reset value (for PEND, which has none, the model's choice of log 2
is left unsaid), so that STATUS reads 0x0000002C, and leaves the bus side's own fields alone. Its one word is accepted under
ERR = 1 and is an overrun under BUSY = 1; with a reserved bit set it is ignored under ERR = 1 and ILLEGAL_CMD under ERR = 0. -/
def Obligations.SysSrstResetsTheBlock : Prop :=
  decode 0x00000002#32 = .ok .sysSrst ∧
  (∀ s : State, ∃ p : Word, exec .sysSrst s = .next { s with
    dvd := 0, rem := 0#8, digit := 0#8, ofs := 0#8, c := 1#40, pacc := 0#12, pcnt := 0#4, pdir := .pack, pout := 0#8,
    err := false, errcode := 0#4, busy := false, pend := p }) ∧
  (∀ s t : State, exec .sysSrst s = .next t → t.statusWord = 0x0000002C#32) ∧
  (∀ s : State, s.busy = false → regWrite .cmd 0x00000002#32 s = { s with pend := 2#32, busy := true }) ∧
  (∀ s : State, s.busy = true → regWrite .cmd 0x00000002#32 s =
    if s.err then s else { s with err := true, errcode := 10#4 }) ∧
  (∀ (w : Word) (s : State), opcField w = 0x02#8 → w ≠ 0x00000002#32 → s.busy = false →
    (s.err = true → regWrite .cmd w s = s) ∧
    (s.err = false → regWrite .cmd w s = { s with pend := w, busy := true } ∧
      complete { s with pend := w, busy := true } = .next { s with pend := w, err := true, errcode := 1#4 }))

/-! ### The divider -/

/-- R99: DIV.CLR clears DVD, REM and DIGIT; STATUS.DZ becomes 1; OFS and everything else is unchanged. -/
def Obligations.DivClrClearsTheDivider : Prop :=
  decode 0x00000010#32 = .ok .divClr ∧
  (∀ w : Word, opcField w = 0x10#8 → w ≠ 0x00000010#32 → decode w = .error .reservedBitSet) ∧
  (∀ s : State, exec .divClr s = .next { s with dvd := 0, rem := 0#8, digit := 0#8 }) ∧
  (∀ s t : State, exec .divClr s = .next t → t.dz = true)

/-- R100, for every NB: DIV.SHB multiplies DVD by 256 and adds the byte, or latches DIV_OVERFLOW and leaves DVD when its top
byte is not zero; STATUS.DZ is 1 after it exactly when the result is 0; nothing else changes. -/
def Obligations.DivShbShiftsAByteIn : Prop :=
  (∀ b : Byte, decode (0x00000011#32 ||| b.setWidth 32 <<< 8) = .ok (.divShb b)) ∧
  (∀ w : Word, opcField w = 0x11#8 → w.extractLsb' 16 16 ≠ 0#16 → decode w = .error .reservedBitSet) ∧
  (∀ (s : State) (b : Byte), s.dvd < 256 ^ (s.nb - 1) → ∃ t,
    exec (.divShb b) s = .next t ∧ t = { s with dvd := s.dvd * 256 + b.toNat } ∧
      (0 < s.nb → t.dvd < 2 ^ (8 * s.nb)) ∧ (t.dz = true ↔ s.dvd * 256 + b.toNat = 0)) ∧
  (∀ (s : State) (b : Byte), 256 ^ (s.nb - 1) ≤ s.dvd → exec (.divShb b) s =
    .next (if s.err then s else { s with err := true, errcode := 4#4 }))

/-- R95, R97 and R98, for every NB and every dividend of `8*NB` bits (`EveryStepKeepsTheInvariants`): a DIV.STEP with a
divisor in 1..256 (1..58 under B58) leaves the quotient in DVD, the remainder in REM and the mapped digit in DIGIT, and
changes nothing else. Its errors come in their order: a reserved bit or MAP = 3 at decode, then DVS = 0, then DVS > 256, then
DVS > 58 under B58; each changes nothing but the latch. STATUS.DZ becomes 1 exactly when the dividend was below the divisor.
-/
def Obligations.DivStepDividesInPlace : Prop :=
  (∀ d : BitVec 9, decode (0x00000012#32 ||| d.setWidth 32 <<< 8) = .ok (.divStep d .raw) ∧
    decode (0x00040012#32 ||| d.setWidth 32 <<< 8) = .ok (.divStep d .ofs) ∧
    decode (0x00080012#32 ||| d.setWidth 32 <<< 8) = .ok (.divStep d .b58)) ∧
  (∀ w : Word, opcField w = 0x12#8 → w &&& 0xFFF20000#32 ≠ 0#32 → decode w = .error .reservedBitSet) ∧
  (∀ w : Word, opcField w = 0x12#8 → w &&& 0xFFF20000#32 = 0#32 → mapField w = 3#2 → decode w = .error .illegalMap) ∧
  (∀ (s : State) (d : BitVec 9) (m : DigitMap), s.dvd < 256 ^ s.nb → 1 ≤ d.toNat → d.toNat ≤ 256 →
    (m = .b58 → d.toNat ≤ 58) →
    let q := s.dvd / d.toNat
    let r := s.dvd % d.toNat
    let g : Nat := match m with
      | .raw => r
      | .ofs => (r + s.ofs.toNat) % 256
      | .b58 => ("123456789ABCDEFGHJKLMNPQRSTUVWXYZabcdefghijkmnopqrstuvwxyz".toList.getD r '?').toNat
    let t := { s with dvd := q, rem := BitVec.ofNat 8 r, digit := BitVec.ofNat 8 g }
    exec (.divStep d m) s = .next t ∧ longDivide s.nb s.dvd d.toNat = (q, r) ∧ q < 256 ^ s.nb ∧ r < 256 ∧ g < 256 ∧
      (t.dz = true ↔ s.dvd < d.toNat)) ∧
  (∀ (s : State) (d : BitVec 9) (m : DigitMap),
    let fails (code : BitVec 4) : Prop :=
      exec (.divStep d m) s = .next (if s.err then s else { s with err := true, errcode := code })
    (d.toNat = 0 → fails 2#4) ∧ (256 < d.toNat → fails 3#4) ∧ (58 < d.toNat → m = .b58 → fails 3#4))

/-- R96: the quotient and the remainder that DIV.STEP leaves satisfy the division identity, and a divisor 0 gives an error and
no result; and for every number of bytes `nb`, the byte-serial loop computes floor quotient and remainder, and after `i` bytes
it holds those of the value of the first `i` bytes. -/
def Obligations.ByteSerialDivisionIsExact : Prop :=
  (∀ nb A d : Nat, 0 < d → A < 256 ^ nb →
    longDivide nb A d = (A / d, A % d) ∧
    (∀ i, i ≤ nb → (((List.range i).map (dividendByte nb A)).foldl (divideByte d) (0, 0)) =
      (A / 256 ^ (nb - i) / d, A / 256 ^ (nb - i) % d))) ∧
  (∀ (s : State) (d : BitVec 9) (m : DigitMap), s.dvd < 256 ^ s.nb → 1 ≤ d.toNat → d.toNat ≤ 256 →
    (m = .b58 → d.toNat ≤ 58) →
    ∃ t, exec (.divStep d m) s = .next t ∧ s.dvd = t.dvd * d.toNat + t.rem.toNat ∧ t.rem.toNat < d.toNat ∧
      t.dvd = s.dvd / d.toNat ∧ t.dvd ≤ s.dvd) ∧
  (∀ (s : State) (m : DigitMap), exec (.divStep 0#9 m) s =
    .next (if s.err then s else { s with err := true, errcode := 2#4 }))

/-- DIV.CLR and then one DIV.SHB per byte, at most NB bytes, loads the value of the big-endian byte string without an error
(30_encoding.md R93, 41_divider.md R100, 20_memory.md R76); everything but the divider and PEND is unchanged. -/
def Obligations.LoadingBytesBuildsTheirValue : Prop :=
  ∀ (s : State) (bytes : List Byte), s.busy = false → s.err = false → bytes.length ≤ s.nb →
    ∃ t, commands (loadCommands bytes) s = .next t ∧ t.dvd = bytesValue bytes ∧
      t = { s with dvd := t.dvd, rem := 0#8, digit := 0#8, pend := t.pend }

/-- For every NB that is a multiple of 4: byte `j` of the dividend, the most significant first, stands in DVD word `j / 4` at bits
`[31 - 8*(j mod 4) : 24 - 8*(j mod 4)]` (20_memory.md R76). -/
def Obligations.DividendBytesStandInBigEndianWords : Prop :=
  ∀ (s : State) (j : Nat), s.nb % 4 = 0 → j < s.nb →
    ((regRead (.dvd (j / 4)) s).extractLsb' (24 - 8 * (j % 4)) 8).toNat = dividendByte s.nb s.dvd j

/-- R102, for every NB: the loop `while STATUS.DZ = 0: div.step d, m ; out DIGIT` emits the base-`d` digits of DVD, least significant first,
through the digit map, as many as the number has digits in base `d` (none for 0), and ends with DVD = 0; `8*NB` turns are always
enough. -/
def Obligations.RepeatedDivisionEmitsTheDigits : Prop :=
  ∀ (s : State) (d : BitVec 9) (m : DigitMap), s.dvd < 256 ^ s.nb → s.busy = false → s.err = false → 2 ≤ d.toNat →
    d.toNat ≤ 256 → (m = .b58 → d.toNat ≤ 58) →
    let r := convert d m (8 * s.nb) s
    r.1 = (Nat.digits d.toNat s.dvd).map (mapDigit m s.ofs) ∧ r.2.dvd = 0 ∧ r.2.err = false ∧
    (s.dvd ≠ 0 → r.1.length = Nat.log d.toNat s.dvd + 1) ∧ (s.dvd = 0 → r.1 = [])

/-! ### The polymod unit -/

/-- R113, R114 and R115, with the step of R112 and the generators of R111 written out: PMD.INIT sets C to 1, PMD.SYM and PMD.CHR
take one polymod step with the symbol, for PMD.CHR the low five bits of the character code; none changes anything else; a bit
set above the operand is illegal. -/
def Obligations.PolymodCommandsStepTheAccumulator : Prop :=
  decode 0x00000020#32 = .ok .pmdInit ∧
  (∀ w : Word, opcField w = 0x20#8 → w ≠ 0x00000020#32 → decode w = .error .reservedBitSet) ∧
  (∀ x : Sym, decode (0x00000021#32 ||| x.setWidth 32 <<< 8) = .ok (.pmdSym x)) ∧
  (∀ w : Word, opcField w = 0x21#8 → w.extractLsb' 13 19 ≠ 0#19 → decode w = .error .reservedBitSet) ∧
  (∀ a : Byte, decode (0x00000022#32 ||| a.setWidth 32 <<< 8) = .ok (.pmdChr a)) ∧
  (∀ w : Word, opcField w = 0x22#8 → w.extractLsb' 16 16 ≠ 0#16 → decode w = .error .reservedBitSet) ∧
  (let after (c : Acc) (d : Sym) : Acc :=
    ((c <<< 5) ^^^ d.setWidth 40) ^^^ (if c.getLsbD 35 then 0x98F2BC8E61#40 else 0#40) ^^^
      (if c.getLsbD 36 then 0x79B76D99E2#40 else 0#40) ^^^ (if c.getLsbD 37 then 0xF33E5FB3C4#40 else 0#40) ^^^
      (if c.getLsbD 38 then 0xAE2EABE2A8#40 else 0#40) ^^^ (if c.getLsbD 39 then 0x1E4F43E470#40 else 0#40)
   ∀ s : State, exec .pmdInit s = .next { s with c := 1#40 } ∧
    (∀ x : Sym, exec (.pmdSym x) s = .next { s with c := after s.c x }) ∧
    (∀ a : Byte, exec (.pmdChr a) s = .next { s with c := after s.c (BitVec.ofNat 5 (a.toNat % 32)) })) ∧
  (∀ s : State, s.pz = true ↔ s.c = 1#40)

/-- R116: a polymod step is linear over exclusive or. -/
def Obligations.PolymodStepIsLinear : Prop :=
  ∀ (A B : Acc) (d e : Sym), pstep (A ^^^ B) (d ^^^ e) = pstep A d ^^^ pstep B e

/-- PMD.INIT and then one PMD.SYM per symbol leave the polymod of the sequence in the result registers, STATUS.PZ = 1 exactly
when it is 0, and the eight checksum symbols spell it, most significant first; nothing but C and PEND changes
(42_polymod.md R112, R118, R119; 00_scope.md R3). -/
def Obligations.CommandsComputeThePolymod : Prop :=
  ∀ (s : State) (symbols : List Sym), s.busy = false → s.err = false →
    ∃ t, commands (polymodCommands symbols) s = .next t ∧ t = { s with c := t.c, pend := t.pend } ∧
      t.polymodResult = polymod symbols ∧ (t.pz = true ↔ polymod symbols = 0#40) ∧
      ((List.range 8).map t.checksumSymbol).foldl (fun n x => n * 32 + x.toNat) 0 = (polymod symbols).toNat

/-- R120, its second half: flipping symbols changes the final accumulator by exactly what the flip pattern alone gives from 0,
whatever the other symbols. -/
def Obligations.FlippedSymbolsChangeTheResultByThePattern : Prop :=
  ∀ (c : Acc) (flips : List (Sym × Sym)),
    (flips.map fun p => p.1 ^^^ p.2).foldl pstep c =
      (flips.map Prod.fst).foldl pstep c ^^^ (flips.map Prod.snd).foldl pstep 0#40

/-- Generation and verification agree: after the generation stream the eight checksum symbols, appended to the payload, make the
verification stream end with STATUS.PZ = 1, and of all checksums of eight symbols they are the only one that does
(42_polymod.md R117, R118, R119). -/
def Obligations.OnlyTheGeneratedChecksumVerifies : Prop :=
  ∀ (s u : State) (pre : List Byte) (payload checksum : List Sym), s.busy = false → s.err = false → u.busy = false →
    u.err = false → checksum.length = 8 →
    ∃ t v, commands (generationCommands pre payload) s = .next t ∧
      commands (verificationCommands pre payload checksum) u = .next v ∧ (v.pz = true ↔ checksum = t.checksum)

/-! ### The packer -/

/-- R130: PKR.INIT empties the packer, sets its direction and clears POUT, whatever it held; PAV becomes 0 and PPZ 1. -/
def Obligations.PkrInitEmptiesThePacker : Prop :=
  decode 0x00000030#32 = .ok (.pkrInit .pack) ∧ decode 0x00000130#32 = .ok (.pkrInit .unpack) ∧
  (∀ w : Word, opcField w = 0x30#8 → w.extractLsb' 9 23 ≠ 0#23 → decode w = .error .reservedBitSet) ∧
  (∀ (s : State) (dir : Dir),
    exec (.pkrInit dir) s = .next { s with pacc := 0#12, pcnt := 0#4, pdir := dir, pout := 0#8 }) ∧
  (∀ (s t : State) (dir : Dir), exec (.pkrInit dir) s = .next t → t.pav = false ∧ t.ppz = true)

/-- R131 and R132: PKR.PUT8 appends a byte in PACK with at most 4 bits held, PKR.PUT5 a symbol in UNPACK with at most 7, without
losing a bit; in the wrong direction they latch PKR_MODE, and with more bits held PKR_OVERFLOW, and change nothing else. -/
def Obligations.PutsAppendOneUnit : Prop :=
  (∀ b : Byte, decode (0x00000031#32 ||| b.setWidth 32 <<< 8) = .ok (.pkrPut8 b)) ∧
  (∀ w : Word, opcField w = 0x31#8 → w.extractLsb' 16 16 ≠ 0#16 → decode w = .error .reservedBitSet) ∧
  (∀ x : Sym, decode (0x00000032#32 ||| x.setWidth 32 <<< 8) = .ok (.pkrPut5 x)) ∧
  (∀ w : Word, opcField w = 0x32#8 → w.extractLsb' 13 19 ≠ 0#19 → decode w = .error .reservedBitSet) ∧
  (∀ (s : State) (b : Byte), s.pdir = .pack → s.pcnt.toNat ≤ 4 → ∃ t, exec (.pkrPut8 b) s = .next t ∧
    t = { s with pacc := BitVec.ofNat 12 (s.pacc.toNat * 2 ^ 8 + b.toNat), pcnt := BitVec.ofNat 4 (s.pcnt.toNat + 8) } ∧
    t.pav = true ∧ (t.ppz = true ↔ t.pacc = 0#12) ∧ (Inv s → s.pacc.toNat * 2 ^ 8 + b.toNat < 2 ^ 12)) ∧
  (∀ (s : State) (x : Sym), s.pdir = .unpack → s.pcnt.toNat ≤ 7 → ∃ t, exec (.pkrPut5 x) s = .next t ∧
    t = { s with pacc := BitVec.ofNat 12 (s.pacc.toNat * 2 ^ 5 + x.toNat), pcnt := BitVec.ofNat 4 (s.pcnt.toNat + 5) } ∧
    (t.pav = true ↔ 8 ≤ s.pcnt.toNat + 5) ∧ (t.ppz = true ↔ t.pacc = 0#12) ∧ (Inv s → s.pacc.toNat * 2 ^ 5 + x.toNat < 2 ^ 12)) ∧
  (∀ (s : State) (b : Byte) (x : Sym),
    let fails (i : Instr) (code : BitVec 4) : Prop :=
      exec i s = .next (if s.err then s else { s with err := true, errcode := code })
    (s.pdir = .unpack → fails (.pkrPut8 b) 5#4) ∧ (s.pdir = .pack → 4 < s.pcnt.toNat → fails (.pkrPut8 b) 7#4) ∧
    (s.pdir = .pack → fails (.pkrPut5 x) 5#4) ∧ (s.pdir = .unpack → 7 < s.pcnt.toNat → fails (.pkrPut5 x) 7#4))

/-- R134 with R133: PKR.GET takes the oldest 5 bits in PACK, 8 in UNPACK, or latches PKR_UNDERFLOW when fewer are held. -/
def Obligations.PkrGetTakesTheOldestUnit : Prop :=
  decode 0x00000033#32 = .ok .pkrGet ∧
  (∀ w : Word, opcField w = 0x33#8 → w ≠ 0x00000033#32 → decode w = .error .reservedBitSet) ∧
  (∀ (s : State) (w : Nat), w = (if s.pdir = .pack then 5 else 8) →
    (w ≤ s.pcnt.toNat → exec .pkrGet s = .next { s with
      pout := BitVec.ofNat 8 (s.pacc.toNat / 2 ^ (s.pcnt.toNat - w))
      pcnt := BitVec.ofNat 4 (s.pcnt.toNat - w)
      pacc := BitVec.ofNat 12 (s.pacc.toNat % 2 ^ (s.pcnt.toNat - w)) } ∧
      (Inv s → s.pacc.toNat / 2 ^ (s.pcnt.toNat - w) < 2 ^ w ∧ s.pcnt.toNat - w ≤ 7)) ∧
    (∀ t, exec .pkrGet s = .next t → (t.pav = true ↔ w ≤ t.pcnt.toNat) ∧ (t.ppz = true ↔ t.pacc = 0#12)) ∧
    (s.pcnt.toNat < w → exec .pkrGet s = .next (if s.err then s else { s with err := true, errcode := 6#4 })))

/-- R135: PKR.FLUSH in PACK emits the held 1 to 4 bits with zero bits on the right and empties the packer; with nothing held it
has no effect; with more than 4 held it latches PKR_OVERFLOW, in UNPACK PKR_MODE. -/
def Obligations.PkrFlushPadsOnTheRight : Prop :=
  decode 0x00000034#32 = .ok .pkrFlush ∧
  (∀ w : Word, opcField w = 0x34#8 → w ≠ 0x00000034#32 → decode w = .error .reservedBitSet) ∧
  (∀ s : State,
    (s.pdir = .pack → 1 ≤ s.pcnt.toNat → s.pcnt.toNat ≤ 4 → ∃ t, exec .pkrFlush s = .next t ∧
      t = { s with pout := BitVec.ofNat 8 (s.pacc.toNat * 2 ^ (5 - s.pcnt.toNat) % 32), pacc := 0#12, pcnt := 0#4 } ∧
      t.pav = false ∧ t.ppz = true ∧ (Inv s → s.pacc.toNat * 2 ^ (5 - s.pcnt.toNat) < 32)) ∧
    (s.pdir = .pack → s.pcnt = 0#4 → exec .pkrFlush s = .next s) ∧
    (s.pdir = .pack → 4 < s.pcnt.toNat → exec .pkrFlush s =
      .next (if s.err then s else { s with err := true, errcode := 7#4 })) ∧
    (s.pdir = .unpack → exec .pkrFlush s = .next (if s.err then s else { s with err := true, errcode := 5#4 })))

/-- R136: PKR.END in UNPACK succeeds exactly with 0 to 4 bits left over, all zero, and empties the packer; its errors come in
the order PKR_MODE, INVALID_LENGTH, INVALID_PADDING; POUT is never changed. -/
def Obligations.PkrEndChecksThePadding : Prop :=
  decode 0x00000035#32 = .ok .pkrEnd ∧
  (∀ w : Word, opcField w = 0x35#8 → w ≠ 0x00000035#32 → decode w = .error .reservedBitSet) ∧
  (∀ s : State,
    let fails (code : BitVec 4) : Prop :=
      exec .pkrEnd s = .next (if s.err then s else { s with err := true, errcode := code })
    (s.pdir = .unpack → s.pcnt.toNat ≤ 4 → s.pacc = 0#12 → ∃ t, exec .pkrEnd s = .next t ∧
      t = { s with pacc := 0#12, pcnt := 0#4 } ∧ t.pav = false ∧ t.ppz = true) ∧
    (s.pdir = .pack → fails 5#4) ∧ (s.pdir = .unpack → 4 < s.pcnt.toNat → fails 9#4) ∧
    (s.pdir = .unpack → s.pcnt.toNat ≤ 4 → s.pacc ≠ 0#12 → fails 8#4))

/-- R43: STATUS.PAV reads 1 when at least 5 bits are held in PACK or 8 in UNPACK, and 0 otherwise; and PKR.GET would succeed
exactly when PAV = 1. -/
def Obligations.PavMeansGetSucceeds : Prop :=
  ∀ s : State,
    (s.statusWord.getLsbD 4 = true ↔ (s.pdir = .pack ∧ 5 ≤ s.pcnt.toNat) ∨ (s.pdir = .unpack ∧ 8 ≤ s.pcnt.toNat)) ∧
    (s.err = false → (s.statusWord.getLsbD 4 = true ↔ ∃ t, exec .pkrGet s = .next t ∧ t.err = false))

/-- R137: the packer holds a queue of bits. PKR.INIT empties it, PUT8 and PUT5 append their unit's bits, the most significant
first, and GET removes the oldest bits and gives them with the oldest bit most significant. -/
def Obligations.PackerIsAQueueOfBits : Prop :=
  (∀ (s : State) (dir : Dir), ∃ t, exec (.pkrInit dir) s = .next t ∧ t.stream = []) ∧
  (∀ (s : State) (b : Byte), Inv s → s.pdir = .pack → s.pcnt.toNat ≤ 4 →
    ∃ t, exec (.pkrPut8 b) s = .next t ∧ t.stream = s.stream ++ bitsOf 8 b.toNat) ∧
  (∀ (s : State) (x : Sym), Inv s → s.pdir = .unpack → s.pcnt.toNat ≤ 7 →
    ∃ t, exec (.pkrPut5 x) s = .next t ∧ t.stream = s.stream ++ bitsOf 5 x.toNat) ∧
  (∀ s : State, Inv s → outWidth s.pdir ≤ s.pcnt.toNat →
    ∃ t, exec .pkrGet s = .next t ∧ s.stream = bitsOf (outWidth s.pdir) t.pout.toNat ++ t.stream)

/-- R138 and the first half of R139: the pack procedure emits `ceil(8n / 5)` symbols whose bits are the bytes' bits, most
significant first, and then `(5 - (8n mod 5)) mod 5` zero bits; it latches no error and leaves the packer empty. -/
def Obligations.PackProcedureRegroupsBytes : Prop :=
  ∀ (s : State) (bytes : List Byte), s.busy = false → s.err = false →
    let r := packProcedure bytes s
    (r.1.flatMap fun o => bitsOf 5 o.toNat) =
      (bytes.flatMap fun b => bitsOf 8 b.toNat) ++ List.replicate ((5 - 8 * bytes.length % 5) % 5) false ∧
    r.1.length = (8 * bytes.length + 4) / 5 ∧ (∀ o ∈ r.1, o.toNat < 32) ∧
    r.2.err = false ∧ r.2.pcnt = 0#4

/-- R139, the unpack procedure: the bytes emitted are the symbols' bits regrouped by eight, the rest (fewer than eight bits)
stays in the packer, and PKR.END succeeds exactly when 0 to 4 bits are left over and all are zero. -/
def Obligations.UnpackProcedureRegroupsSymbols : Prop :=
  ∀ (s : State) (symbols : List Sym), s.busy = false → s.err = false →
    let r := unpackBody symbols s
    (symbols.flatMap fun x => bitsOf 5 x.toNat) = (r.1.flatMap fun o => bitsOf 8 o.toNat) ++ r.2.stream ∧
    r.2.stream.length < 8 ∧ r.2.err = false ∧
    ((unpackProcedure symbols s).2.err = false ↔ r.2.stream.length ≤ 4 ∧ true ∉ r.2.stream)

/-- R139, last sentence: unpacking what the pack procedure emitted gives the original bytes back, and PKR.END succeeds. -/
def Obligations.UnpackAfterPackReturnsTheBytes : Prop :=
  ∀ (s t : State) (bytes : List Byte), s.busy = false → s.err = false → t.busy = false → t.err = false →
    (unpackProcedure ((packProcedure bytes s).1.map fun o => o.extractLsb' 0 5) t).1 = bytes ∧
    (unpackProcedure ((packProcedure bytes s).1.map fun o => o.extractLsb' 0 5) t).2.err = false

/-- The payload layout: version byte and hash pack into the table's number of symbols with the table's number of zero padding
bits; symbol 0 is the type code and symbol 1 the hash-size code and the first two hash bits (43_packer.md R140, R141, R142,
R143). -/
def Obligations.PayloadsHaveTheTablesLayout : Prop :=
  ∀ (s : State) (kind : BitVec 4) (code : BitVec 3) (hash : List Byte), s.busy = false → s.err = false →
    8 * hash.length = hashBits code →
    let payload := packPayload kind code hash s
    payload.length = payloadLength code ∧ 5 * (payload.length + 8) = 8 + hashBits code + paddingBits code + 40 ∧
    paddingBits code = (5 - (8 + hashBits code) % 5) % 5 ∧ (versionByte kind code).toNat = kind.toNat * 8 + code.toNat ∧
    (payload.getLast?.map fun x => x.toNat % 2 ^ paddingBits code) = some 0 ∧
    (payload[0]?.map BitVec.toNat) = some kind.toNat ∧
    (payload[1]?.map BitVec.toNat) = hash.head?.map fun b => code.toNat * 4 + b.toNat / 64

/-- Field extraction: unpacking every payload symbol but the checksum gives the version byte and then the hash, and leaves the
padding bits, all zero, for PKR.END, which succeeds (43_packer.md R144). -/
def Obligations.UnpackingAPayloadGivesVersionAndHash : Prop :=
  ∀ (s t : State) (kind : BitVec 4) (code : BitVec 3) (hash : List Byte), s.busy = false → s.err = false → t.busy = false →
    t.err = false → 8 * hash.length = hashBits code →
    let r := unpackBody (packPayload kind code hash s) t
    r.1 = versionByte kind code :: hash ∧ r.2.pcnt.toNat = paddingBits code ∧ r.2.pacc = 0#12 ∧
    (unpackProcedure (packPayload kind code hash s) t).2.err = false

/-! ### Frames -/

/-- The divider's commands change nothing but DVD, REM, DIGIT and the error latch; DIV.SHB keeps REM and DIGIT; DIV.CLR keeps
the latch. -/
def Obligations.DividerCommandsFrame : Prop :=
  ∀ s t : State,
    (exec .divClr s = .next t → BusKept s t ∧ PackerKept s t ∧ t.c = s.c ∧ t.ofs = s.ofs ∧ LatchKept s t) ∧
    (∀ b, exec (.divShb b) s = .next t → BusKept s t ∧ PackerKept s t ∧ t.c = s.c ∧ t.ofs = s.ofs ∧
      t.rem = s.rem ∧ t.digit = s.digit ∧ LatchOnly [.divOverflow] s t) ∧
    (∀ d m, exec (.divStep d m) s = .next t → BusKept s t ∧ PackerKept s t ∧ t.c = s.c ∧ t.ofs = s.ofs ∧
      LatchOnly [.divByZero, .unsupportedBase] s t)

/-- The polymod's commands change nothing but C. -/
def Obligations.PolymodCommandsFrame : Prop :=
  ∀ (s t : State) (i : Instr), (i = .pmdInit ∨ (∃ x, i = .pmdSym x) ∨ ∃ a, i = .pmdChr a) → exec i s = .next t →
    BusKept s t ∧ DividerKept s t ∧ PackerKept s t ∧ t.ofs = s.ofs ∧ LatchKept s t

/-- The packer's commands change nothing but PACC, PCNT, PDIR, POUT and the error latch; only PKR.INIT changes PDIR; the puts
and PKR.END keep POUT. -/
def Obligations.PackerCommandsFrame : Prop :=
  ∀ s t : State,
    (∀ dir, exec (.pkrInit dir) s = .next t → BusKept s t ∧ DividerKept s t ∧ t.c = s.c ∧ t.ofs = s.ofs ∧ LatchKept s t) ∧
    (∀ i, ((∃ b, i = .pkrPut8 b) ∨ ∃ x, i = .pkrPut5 x) → exec i s = .next t →
      BusKept s t ∧ DividerKept s t ∧ t.c = s.c ∧ t.ofs = s.ofs ∧ t.pdir = s.pdir ∧ t.pout = s.pout ∧
      LatchOnly [.pkrMode, .pkrOverflow] s t) ∧
    (exec .pkrGet s = .next t →
      BusKept s t ∧ DividerKept s t ∧ t.c = s.c ∧ t.ofs = s.ofs ∧ t.pdir = s.pdir ∧ LatchOnly [.pkrUnderflow] s t) ∧
    (exec .pkrFlush s = .next t →
      BusKept s t ∧ DividerKept s t ∧ t.c = s.c ∧ t.ofs = s.ofs ∧ t.pdir = s.pdir ∧
      LatchOnly [.pkrMode, .pkrOverflow] s t) ∧
    (exec .pkrEnd s = .next t →
      BusKept s t ∧ DividerKept s t ∧ t.c = s.c ∧ t.ofs = s.ofs ∧ t.pdir = s.pdir ∧ t.pout = s.pout ∧
      LatchOnly [.pkrMode, .invalidLength, .invalidPadding] s t)

/-! ### The error latch -/

/-- R159: a completion that fails sets the latch if it was clear, and changes no other state; if the latch was already set, the
completion of a command that would fail changes nothing at all (but BUSY, by R72). -/
def Obligations.FailedCommandChangesOnlyTheLatch : Prop :=
  ∀ s : State, s.err = false → ∀ t, complete s = .next t → t.err = true →
    (∃ e : ErrCode, e ≠ .overrun ∧ t = { s with busy := false, err := true, errcode := e.code }) ∧
    (∀ code : BitVec 4, complete { s with err := true, errcode := code } =
      .next { s with busy := false, err := true, errcode := code })

/-- R166: while ERR = 1 the latch keeps the first code, whatever event a step serves, as long as ERR stays 1; no command but the
two of R165 is accepted; and an overrun latches nothing new. -/
def Obligations.ErrorsDoNotNest : Prop :=
  (∀ s t : State, s.err = true → step s = .next t → t.err = true → t.errcode = s.errcode) ∧
  (∀ (s : State) (w : Word), s.err = true → s.busy = false → w ≠ 0x00000001#32 → w ≠ 0x00000002#32 →
    regWrite .cmd w s = s) ∧
  (∀ (s : State) (r : Reg) (v : Word), s.err = true → s.busy = true → regWrite r v s = s)

/-- The latch is cleared only by SYS.CLRERR, SYS.SRST and reset (10_state.md R31, 60_exceptions.md R165): a step from ERR = 1 to
ERR = 0 completed one of the two words or released RST. That a reset clears the latch at the release of RST and not at its
assertion is the model's choice (log 8). -/
def Obligations.OnlyThreeEventsClearTheLatch : Prop :=
  ∀ s t : State, s.err = true → step s = .next t → t.err = false →
    (s.rst = true ∧ nextEvent s = .rstRelease) ∨
    (s.rst = false ∧ s.busy = true ∧ nextEvent s = .blockTurn ∧ (s.pend = 0x00000001#32 ∨ s.pend = 0x00000002#32))

/-! ### Reset -/

/-- R55: the reset values the spec gives, with this hardware's NB (00_scope.md R4), and what the registers computed from them
read (10_state.md R40, R48, R49). -/
def Obligations.ResetValuesAreTheTables : Prop :=
  State.reset.dvd = 0 ∧ State.reset.rem = 0#8 ∧ State.reset.digit = 0#8 ∧ State.reset.ofs = 0#8 ∧
  State.reset.c = 1#40 ∧ State.reset.pacc = 0#12 ∧ State.reset.pcnt = 0#4 ∧ State.reset.pdir = .pack ∧
  State.reset.pout = 0#8 ∧ State.reset.err = false ∧ State.reset.errcode = 0#4 ∧ State.reset.busy = false ∧
  State.reset.nb = 72 ∧ State.reset.statusWord = 0x0000002C#32 ∧ State.reset.polymodResult = 0#40

/-- After R195 and R196: while RST is asserted the block accepts and completes nothing and ignores every aligned write inside
the window, and a read there returns some value (a free draw) and changes nothing of the block. When RST is released every
state element holds its reset value (for PEND, which has none, the model's choice is left unsaid), and a command in flight is
lost. That every register keeps its value at the assertion and while RST is asserted is the model's choice (log 8), and the
count of draws that a read advances is the model's own (log 4). -/
def Obligations.RstHoldsThenResetsTheBlock : Prop :=
  ∀ s : State,
    (nextEvent s = .rstAssert → step s = .next { s with agenda := s.agenda.tail, rst := true }) ∧
    (s.rst = true →
      (nextEvent s = .blockTurn → step s = .next { s with agenda := s.agenda.tail }) ∧
      (∀ off v, off % 4 = 0 → off < 256 → nextEvent s = .write (s.base + off) 4 v →
        step s = .next { s with agenda := s.agenda.tail }) ∧
      (∀ off, off % 4 = 0 → off < 256 → nextEvent s = .read (s.base + off) 4 → ∃ v, step s =
        .next { s with agenda := s.agenda.tail, reads := v :: s.reads, draws := s.draws + 1 }) ∧
      (nextEvent s = .rstRelease → ∃ p : Word, step s = .next { s with
        dvd := 0, rem := 0#8, digit := 0#8, ofs := 0#8, c := 1#40, pacc := 0#12, pcnt := 0#4, pdir := .pack,
        pout := 0#8, err := false, errcode := 0#4, busy := false, pend := p, rst := false, agenda := s.agenda.tail }))

/-- R197: SYS.SRST leaves the block as a release of RST would; written while BUSY = 1 it is refused as an overrun and the
command in flight stays. -/
def Obligations.SysSrstEqualsRstRelease : Prop :=
  (∀ s : State, s.rst = false → exec .sysSrst s = .next ({ s with rst := true }).releaseRst) ∧
  (∀ s : State, s.rst = false → s.busy = true → s.err = false → nextEvent s = .write (s.base + 0x010) 4 0x00000002#32 →
    step s = .next { s with agenda := s.agenda.tail, err := true, errcode := 10#4 })

/-! ### Invariants and safety -/

/-- The invariants of 10_state.md R35 hold after reset. -/
def Obligations.ResetMeetsTheInvariants : Prop := Inv State.reset ∧ InFlight State.reset

/-- R35, with R4's legal NB and the width it gives DVD: every step keeps the invariants, from every state that meets them. -/
def Obligations.EveryStepKeepsTheInvariants : Prop := ∀ s t : State, Inv s → step s = .next t → Inv t

/-- Every step keeps this: a command in flight under ERR = 1 was overtaken by an overrun, or is SYS.CLRERR or SYS.SRST
(20_memory.md R69 to R71, 60_exceptions.md R163). -/
def Obligations.EveryStepKeepsInFlight : Prop := ∀ s t : State, InFlight s → step s = .next t → InFlight t

/-- A host that makes only specified accesses never stops the machine: from every state that meets the invariants, any number of
steps ends in a state that meets them, with no fault and no refusal. -/
def Obligations.SpecifiedAccessesNeverStopTheMachine : Prop :=
  ∀ (k : Nat) (s : State), Inv s → Specified s → ∃ t, Sys2Proof.core.run k s = .next t ∧ Inv t ∧ Specified t
end

