-- ==== Sys2Proof/Laws/State.lean ====
section
/-!
SUPPORT. One lemma per field per update of State, so that no later proof unfolds a record update.
-/
namespace Sys2Proof.Machine.State

@[simp] theorem latch_dvd (s : State) (e : ErrCode) : (s.latch e).dvd = s.dvd := by unfold latch; split <;> rfl
@[simp] theorem latch_rem (s : State) (e : ErrCode) : (s.latch e).rem = s.rem := by unfold latch; split <;> rfl
@[simp] theorem latch_digit (s : State) (e : ErrCode) : (s.latch e).digit = s.digit := by unfold latch; split <;> rfl
@[simp] theorem latch_ofs (s : State) (e : ErrCode) : (s.latch e).ofs = s.ofs := by unfold latch; split <;> rfl
@[simp] theorem latch_c (s : State) (e : ErrCode) : (s.latch e).c = s.c := by unfold latch; split <;> rfl
@[simp] theorem latch_pacc (s : State) (e : ErrCode) : (s.latch e).pacc = s.pacc := by unfold latch; split <;> rfl
@[simp] theorem latch_pcnt (s : State) (e : ErrCode) : (s.latch e).pcnt = s.pcnt := by unfold latch; split <;> rfl
@[simp] theorem latch_pdir (s : State) (e : ErrCode) : (s.latch e).pdir = s.pdir := by unfold latch; split <;> rfl
@[simp] theorem latch_pout (s : State) (e : ErrCode) : (s.latch e).pout = s.pout := by unfold latch; split <;> rfl
@[simp] theorem latch_err (s : State) (e : ErrCode) : (s.latch e).err = true := by unfold latch; split <;> simp_all
theorem latch_errcode (s : State) (e : ErrCode) : (s.latch e).errcode = if s.err then s.errcode else e.code := by
  unfold latch; split <;> rfl
@[simp] theorem latch_busy (s : State) (e : ErrCode) : (s.latch e).busy = s.busy := by unfold latch; split <;> rfl
@[simp] theorem latch_pend (s : State) (e : ErrCode) : (s.latch e).pend = s.pend := by unfold latch; split <;> rfl
@[simp] theorem latch_rst (s : State) (e : ErrCode) : (s.latch e).rst = s.rst := by unfold latch; split <;> rfl
@[simp] theorem latch_agenda (s : State) (e : ErrCode) : (s.latch e).agenda = s.agenda := by unfold latch; split <;> rfl
@[simp] theorem latch_reads (s : State) (e : ErrCode) : (s.latch e).reads = s.reads := by unfold latch; split <;> rfl
@[simp] theorem latch_draws (s : State) (e : ErrCode) : (s.latch e).draws = s.draws := by unfold latch; split <;> rfl
@[simp] theorem latch_base (s : State) (e : ErrCode) : (s.latch e).base = s.base := by unfold latch; split <;> rfl
@[simp] theorem latch_nb (s : State) (e : ErrCode) : (s.latch e).nb = s.nb := by unfold latch; split <;> rfl

@[simp] theorem clearError_dvd (s : State) : (s.clearError).dvd = s.dvd := rfl
@[simp] theorem clearError_rem (s : State) : (s.clearError).rem = s.rem := rfl
@[simp] theorem clearError_digit (s : State) : (s.clearError).digit = s.digit := rfl
@[simp] theorem clearError_ofs (s : State) : (s.clearError).ofs = s.ofs := rfl
@[simp] theorem clearError_c (s : State) : (s.clearError).c = s.c := rfl
@[simp] theorem clearError_pacc (s : State) : (s.clearError).pacc = s.pacc := rfl
@[simp] theorem clearError_pcnt (s : State) : (s.clearError).pcnt = s.pcnt := rfl
@[simp] theorem clearError_pdir (s : State) : (s.clearError).pdir = s.pdir := rfl
@[simp] theorem clearError_pout (s : State) : (s.clearError).pout = s.pout := rfl
@[simp] theorem clearError_err (s : State) : (s.clearError).err = false := rfl
@[simp] theorem clearError_errcode (s : State) : (s.clearError).errcode = 0#4 := rfl
@[simp] theorem clearError_busy (s : State) : (s.clearError).busy = s.busy := rfl
@[simp] theorem clearError_pend (s : State) : (s.clearError).pend = s.pend := rfl
@[simp] theorem clearError_rst (s : State) : (s.clearError).rst = s.rst := rfl
@[simp] theorem clearError_agenda (s : State) : (s.clearError).agenda = s.agenda := rfl
@[simp] theorem clearError_reads (s : State) : (s.clearError).reads = s.reads := rfl
@[simp] theorem clearError_draws (s : State) : (s.clearError).draws = s.draws := rfl
@[simp] theorem clearError_base (s : State) : (s.clearError).base = s.base := rfl
@[simp] theorem clearError_nb (s : State) : (s.clearError).nb = s.nb := rfl

@[simp] theorem applyReset_dvd (s : State) : (s.applyReset).dvd = 0 := rfl
@[simp] theorem applyReset_rem (s : State) : (s.applyReset).rem = 0#8 := rfl
@[simp] theorem applyReset_digit (s : State) : (s.applyReset).digit = 0#8 := rfl
@[simp] theorem applyReset_ofs (s : State) : (s.applyReset).ofs = 0#8 := rfl
@[simp] theorem applyReset_c (s : State) : (s.applyReset).c = 1#40 := rfl
@[simp] theorem applyReset_pacc (s : State) : (s.applyReset).pacc = 0#12 := rfl
@[simp] theorem applyReset_pcnt (s : State) : (s.applyReset).pcnt = 0#4 := rfl
@[simp] theorem applyReset_pdir (s : State) : (s.applyReset).pdir = .pack := rfl
@[simp] theorem applyReset_pout (s : State) : (s.applyReset).pout = 0#8 := rfl
@[simp] theorem applyReset_err (s : State) : (s.applyReset).err = false := rfl
@[simp] theorem applyReset_errcode (s : State) : (s.applyReset).errcode = 0#4 := rfl
@[simp] theorem applyReset_busy (s : State) : (s.applyReset).busy = false := rfl
@[simp] theorem applyReset_pend (s : State) : (s.applyReset).pend = 0#32 := rfl
@[simp] theorem applyReset_rst (s : State) : (s.applyReset).rst = s.rst := rfl
@[simp] theorem applyReset_agenda (s : State) : (s.applyReset).agenda = s.agenda := rfl
@[simp] theorem applyReset_reads (s : State) : (s.applyReset).reads = s.reads := rfl
@[simp] theorem applyReset_draws (s : State) : (s.applyReset).draws = s.draws := rfl
@[simp] theorem applyReset_base (s : State) : (s.applyReset).base = s.base := rfl
@[simp] theorem applyReset_nb (s : State) : (s.applyReset).nb = s.nb := rfl

@[simp] theorem assertRst_dvd (s : State) : (s.assertRst).dvd = s.dvd := rfl
@[simp] theorem assertRst_rem (s : State) : (s.assertRst).rem = s.rem := rfl
@[simp] theorem assertRst_digit (s : State) : (s.assertRst).digit = s.digit := rfl
@[simp] theorem assertRst_ofs (s : State) : (s.assertRst).ofs = s.ofs := rfl
@[simp] theorem assertRst_c (s : State) : (s.assertRst).c = s.c := rfl
@[simp] theorem assertRst_pacc (s : State) : (s.assertRst).pacc = s.pacc := rfl
@[simp] theorem assertRst_pcnt (s : State) : (s.assertRst).pcnt = s.pcnt := rfl
@[simp] theorem assertRst_pdir (s : State) : (s.assertRst).pdir = s.pdir := rfl
@[simp] theorem assertRst_pout (s : State) : (s.assertRst).pout = s.pout := rfl
@[simp] theorem assertRst_err (s : State) : (s.assertRst).err = s.err := rfl
@[simp] theorem assertRst_errcode (s : State) : (s.assertRst).errcode = s.errcode := rfl
@[simp] theorem assertRst_busy (s : State) : (s.assertRst).busy = s.busy := rfl
@[simp] theorem assertRst_pend (s : State) : (s.assertRst).pend = s.pend := rfl
@[simp] theorem assertRst_rst (s : State) : (s.assertRst).rst = true := rfl
@[simp] theorem assertRst_agenda (s : State) : (s.assertRst).agenda = s.agenda := rfl
@[simp] theorem assertRst_reads (s : State) : (s.assertRst).reads = s.reads := rfl
@[simp] theorem assertRst_draws (s : State) : (s.assertRst).draws = s.draws := rfl
@[simp] theorem assertRst_base (s : State) : (s.assertRst).base = s.base := rfl
@[simp] theorem assertRst_nb (s : State) : (s.assertRst).nb = s.nb := rfl

@[simp] theorem accept_dvd (s : State) (w : Word) : (s.accept w).dvd = s.dvd := rfl
@[simp] theorem accept_rem (s : State) (w : Word) : (s.accept w).rem = s.rem := rfl
@[simp] theorem accept_digit (s : State) (w : Word) : (s.accept w).digit = s.digit := rfl
@[simp] theorem accept_ofs (s : State) (w : Word) : (s.accept w).ofs = s.ofs := rfl
@[simp] theorem accept_c (s : State) (w : Word) : (s.accept w).c = s.c := rfl
@[simp] theorem accept_pacc (s : State) (w : Word) : (s.accept w).pacc = s.pacc := rfl
@[simp] theorem accept_pcnt (s : State) (w : Word) : (s.accept w).pcnt = s.pcnt := rfl
@[simp] theorem accept_pdir (s : State) (w : Word) : (s.accept w).pdir = s.pdir := rfl
@[simp] theorem accept_pout (s : State) (w : Word) : (s.accept w).pout = s.pout := rfl
@[simp] theorem accept_err (s : State) (w : Word) : (s.accept w).err = s.err := rfl
@[simp] theorem accept_errcode (s : State) (w : Word) : (s.accept w).errcode = s.errcode := rfl
@[simp] theorem accept_busy (s : State) (w : Word) : (s.accept w).busy = true := rfl
@[simp] theorem accept_pend (s : State) (w : Word) : (s.accept w).pend = w := rfl
@[simp] theorem accept_rst (s : State) (w : Word) : (s.accept w).rst = s.rst := rfl
@[simp] theorem accept_agenda (s : State) (w : Word) : (s.accept w).agenda = s.agenda := rfl
@[simp] theorem accept_reads (s : State) (w : Word) : (s.accept w).reads = s.reads := rfl
@[simp] theorem accept_draws (s : State) (w : Word) : (s.accept w).draws = s.draws := rfl
@[simp] theorem accept_base (s : State) (w : Word) : (s.accept w).base = s.base := rfl
@[simp] theorem accept_nb (s : State) (w : Word) : (s.accept w).nb = s.nb := rfl

@[simp] theorem endCommand_dvd (s : State) : (s.endCommand).dvd = s.dvd := rfl
@[simp] theorem endCommand_rem (s : State) : (s.endCommand).rem = s.rem := rfl
@[simp] theorem endCommand_digit (s : State) : (s.endCommand).digit = s.digit := rfl
@[simp] theorem endCommand_ofs (s : State) : (s.endCommand).ofs = s.ofs := rfl
@[simp] theorem endCommand_c (s : State) : (s.endCommand).c = s.c := rfl
@[simp] theorem endCommand_pacc (s : State) : (s.endCommand).pacc = s.pacc := rfl
@[simp] theorem endCommand_pcnt (s : State) : (s.endCommand).pcnt = s.pcnt := rfl
@[simp] theorem endCommand_pdir (s : State) : (s.endCommand).pdir = s.pdir := rfl
@[simp] theorem endCommand_pout (s : State) : (s.endCommand).pout = s.pout := rfl
@[simp] theorem endCommand_err (s : State) : (s.endCommand).err = s.err := rfl
@[simp] theorem endCommand_errcode (s : State) : (s.endCommand).errcode = s.errcode := rfl
@[simp] theorem endCommand_busy (s : State) : (s.endCommand).busy = false := rfl
@[simp] theorem endCommand_pend (s : State) : (s.endCommand).pend = s.pend := rfl
@[simp] theorem endCommand_rst (s : State) : (s.endCommand).rst = s.rst := rfl
@[simp] theorem endCommand_agenda (s : State) : (s.endCommand).agenda = s.agenda := rfl
@[simp] theorem endCommand_reads (s : State) : (s.endCommand).reads = s.reads := rfl
@[simp] theorem endCommand_draws (s : State) : (s.endCommand).draws = s.draws := rfl
@[simp] theorem endCommand_base (s : State) : (s.endCommand).base = s.base := rfl
@[simp] theorem endCommand_nb (s : State) : (s.endCommand).nb = s.nb := rfl

@[simp] theorem placeCommand_dvd (s : State) (w : Word) : (s.placeCommand w).dvd = s.dvd := rfl
@[simp] theorem placeCommand_rem (s : State) (w : Word) : (s.placeCommand w).rem = s.rem := rfl
@[simp] theorem placeCommand_digit (s : State) (w : Word) : (s.placeCommand w).digit = s.digit := rfl
@[simp] theorem placeCommand_ofs (s : State) (w : Word) : (s.placeCommand w).ofs = s.ofs := rfl
@[simp] theorem placeCommand_c (s : State) (w : Word) : (s.placeCommand w).c = s.c := rfl
@[simp] theorem placeCommand_pacc (s : State) (w : Word) : (s.placeCommand w).pacc = s.pacc := rfl
@[simp] theorem placeCommand_pcnt (s : State) (w : Word) : (s.placeCommand w).pcnt = s.pcnt := rfl
@[simp] theorem placeCommand_pdir (s : State) (w : Word) : (s.placeCommand w).pdir = s.pdir := rfl
@[simp] theorem placeCommand_pout (s : State) (w : Word) : (s.placeCommand w).pout = s.pout := rfl
@[simp] theorem placeCommand_err (s : State) (w : Word) : (s.placeCommand w).err = s.err := rfl
@[simp] theorem placeCommand_errcode (s : State) (w : Word) : (s.placeCommand w).errcode = s.errcode := rfl
@[simp] theorem placeCommand_busy (s : State) (w : Word) : (s.placeCommand w).busy = true := rfl
@[simp] theorem placeCommand_pend (s : State) (w : Word) : (s.placeCommand w).pend = w := rfl
@[simp] theorem placeCommand_rst (s : State) (w : Word) : (s.placeCommand w).rst = false := rfl
@[simp] theorem placeCommand_agenda (s : State) (w : Word) : (s.placeCommand w).agenda = .blockTurn :: s.agenda := rfl
@[simp] theorem placeCommand_reads (s : State) (w : Word) : (s.placeCommand w).reads = s.reads := rfl
@[simp] theorem placeCommand_draws (s : State) (w : Word) : (s.placeCommand w).draws = s.draws := rfl
@[simp] theorem placeCommand_base (s : State) (w : Word) : (s.placeCommand w).base = s.base := rfl
@[simp] theorem placeCommand_nb (s : State) (w : Word) : (s.placeCommand w).nb = s.nb := rfl

@[simp] theorem returnRead_dvd (s : State) (v : Word) : (s.returnRead v).dvd = s.dvd := rfl
@[simp] theorem returnRead_rem (s : State) (v : Word) : (s.returnRead v).rem = s.rem := rfl
@[simp] theorem returnRead_digit (s : State) (v : Word) : (s.returnRead v).digit = s.digit := rfl
@[simp] theorem returnRead_ofs (s : State) (v : Word) : (s.returnRead v).ofs = s.ofs := rfl
@[simp] theorem returnRead_c (s : State) (v : Word) : (s.returnRead v).c = s.c := rfl
@[simp] theorem returnRead_pacc (s : State) (v : Word) : (s.returnRead v).pacc = s.pacc := rfl
@[simp] theorem returnRead_pcnt (s : State) (v : Word) : (s.returnRead v).pcnt = s.pcnt := rfl
@[simp] theorem returnRead_pdir (s : State) (v : Word) : (s.returnRead v).pdir = s.pdir := rfl
@[simp] theorem returnRead_pout (s : State) (v : Word) : (s.returnRead v).pout = s.pout := rfl
@[simp] theorem returnRead_err (s : State) (v : Word) : (s.returnRead v).err = s.err := rfl
@[simp] theorem returnRead_errcode (s : State) (v : Word) : (s.returnRead v).errcode = s.errcode := rfl
@[simp] theorem returnRead_busy (s : State) (v : Word) : (s.returnRead v).busy = s.busy := rfl
@[simp] theorem returnRead_pend (s : State) (v : Word) : (s.returnRead v).pend = s.pend := rfl
@[simp] theorem returnRead_rst (s : State) (v : Word) : (s.returnRead v).rst = s.rst := rfl
@[simp] theorem returnRead_agenda (s : State) (v : Word) : (s.returnRead v).agenda = s.agenda := rfl
@[simp] theorem returnRead_reads (s : State) (v : Word) : (s.returnRead v).reads = v :: s.reads := rfl
@[simp] theorem returnRead_draws (s : State) (v : Word) : (s.returnRead v).draws = s.draws := rfl
@[simp] theorem returnRead_base (s : State) (v : Word) : (s.returnRead v).base = s.base := rfl
@[simp] theorem returnRead_nb (s : State) (v : Word) : (s.returnRead v).nb = s.nb := rfl

@[simp] theorem returnDraw_dvd (s : State) (f : Word → Word) : (s.returnDraw f).dvd = s.dvd := rfl
@[simp] theorem returnDraw_rem (s : State) (f : Word → Word) : (s.returnDraw f).rem = s.rem := rfl
@[simp] theorem returnDraw_digit (s : State) (f : Word → Word) : (s.returnDraw f).digit = s.digit := rfl
@[simp] theorem returnDraw_ofs (s : State) (f : Word → Word) : (s.returnDraw f).ofs = s.ofs := rfl
@[simp] theorem returnDraw_c (s : State) (f : Word → Word) : (s.returnDraw f).c = s.c := rfl
@[simp] theorem returnDraw_pacc (s : State) (f : Word → Word) : (s.returnDraw f).pacc = s.pacc := rfl
@[simp] theorem returnDraw_pcnt (s : State) (f : Word → Word) : (s.returnDraw f).pcnt = s.pcnt := rfl
@[simp] theorem returnDraw_pdir (s : State) (f : Word → Word) : (s.returnDraw f).pdir = s.pdir := rfl
@[simp] theorem returnDraw_pout (s : State) (f : Word → Word) : (s.returnDraw f).pout = s.pout := rfl
@[simp] theorem returnDraw_err (s : State) (f : Word → Word) : (s.returnDraw f).err = s.err := rfl
@[simp] theorem returnDraw_errcode (s : State) (f : Word → Word) : (s.returnDraw f).errcode = s.errcode := rfl
@[simp] theorem returnDraw_busy (s : State) (f : Word → Word) : (s.returnDraw f).busy = s.busy := rfl
@[simp] theorem returnDraw_pend (s : State) (f : Word → Word) : (s.returnDraw f).pend = s.pend := rfl
@[simp] theorem returnDraw_rst (s : State) (f : Word → Word) : (s.returnDraw f).rst = s.rst := rfl
@[simp] theorem returnDraw_agenda (s : State) (f : Word → Word) : (s.returnDraw f).agenda = s.agenda := rfl
@[simp] theorem returnDraw_reads (s : State) (f : Word → Word) : (s.returnDraw f).reads = f (Config.freeDraw s.draws) :: s.reads := rfl
@[simp] theorem returnDraw_draws (s : State) (f : Word → Word) : (s.returnDraw f).draws = s.draws + 1 := rfl
@[simp] theorem returnDraw_base (s : State) (f : Word → Word) : (s.returnDraw f).base = s.base := rfl
@[simp] theorem returnDraw_nb (s : State) (f : Word → Word) : (s.returnDraw f).nb = s.nb := rfl

@[simp] theorem popEvent_dvd (s : State) : (s.popEvent).dvd = s.dvd := rfl
@[simp] theorem popEvent_rem (s : State) : (s.popEvent).rem = s.rem := rfl
@[simp] theorem popEvent_digit (s : State) : (s.popEvent).digit = s.digit := rfl
@[simp] theorem popEvent_ofs (s : State) : (s.popEvent).ofs = s.ofs := rfl
@[simp] theorem popEvent_c (s : State) : (s.popEvent).c = s.c := rfl
@[simp] theorem popEvent_pacc (s : State) : (s.popEvent).pacc = s.pacc := rfl
@[simp] theorem popEvent_pcnt (s : State) : (s.popEvent).pcnt = s.pcnt := rfl
@[simp] theorem popEvent_pdir (s : State) : (s.popEvent).pdir = s.pdir := rfl
@[simp] theorem popEvent_pout (s : State) : (s.popEvent).pout = s.pout := rfl
@[simp] theorem popEvent_err (s : State) : (s.popEvent).err = s.err := rfl
@[simp] theorem popEvent_errcode (s : State) : (s.popEvent).errcode = s.errcode := rfl
@[simp] theorem popEvent_busy (s : State) : (s.popEvent).busy = s.busy := rfl
@[simp] theorem popEvent_pend (s : State) : (s.popEvent).pend = s.pend := rfl
@[simp] theorem popEvent_rst (s : State) : (s.popEvent).rst = s.rst := rfl
@[simp] theorem popEvent_agenda (s : State) : (s.popEvent).agenda = s.agenda.tail := rfl
@[simp] theorem popEvent_reads (s : State) : (s.popEvent).reads = s.reads := rfl
@[simp] theorem popEvent_draws (s : State) : (s.popEvent).draws = s.draws := rfl
@[simp] theorem popEvent_base (s : State) : (s.popEvent).base = s.base := rfl
@[simp] theorem popEvent_nb (s : State) : (s.popEvent).nb = s.nb := rfl

@[simp] theorem putBits_dvd (s : State) (n : Nat) (v : Shift) : (s.putBits n v).dvd = s.dvd := rfl
@[simp] theorem putBits_rem (s : State) (n : Nat) (v : Shift) : (s.putBits n v).rem = s.rem := rfl
@[simp] theorem putBits_digit (s : State) (n : Nat) (v : Shift) : (s.putBits n v).digit = s.digit := rfl
@[simp] theorem putBits_ofs (s : State) (n : Nat) (v : Shift) : (s.putBits n v).ofs = s.ofs := rfl
@[simp] theorem putBits_c (s : State) (n : Nat) (v : Shift) : (s.putBits n v).c = s.c := rfl
@[simp] theorem putBits_pacc (s : State) (n : Nat) (v : Shift) : (s.putBits n v).pacc = (s.pacc <<< n) ||| v := rfl
@[simp] theorem putBits_pcnt (s : State) (n : Nat) (v : Shift) : (s.putBits n v).pcnt = s.pcnt + BitVec.ofNat 4 n := rfl
@[simp] theorem putBits_pdir (s : State) (n : Nat) (v : Shift) : (s.putBits n v).pdir = s.pdir := rfl
@[simp] theorem putBits_pout (s : State) (n : Nat) (v : Shift) : (s.putBits n v).pout = s.pout := rfl
@[simp] theorem putBits_err (s : State) (n : Nat) (v : Shift) : (s.putBits n v).err = s.err := rfl
@[simp] theorem putBits_errcode (s : State) (n : Nat) (v : Shift) : (s.putBits n v).errcode = s.errcode := rfl
@[simp] theorem putBits_busy (s : State) (n : Nat) (v : Shift) : (s.putBits n v).busy = s.busy := rfl
@[simp] theorem putBits_pend (s : State) (n : Nat) (v : Shift) : (s.putBits n v).pend = s.pend := rfl
@[simp] theorem putBits_rst (s : State) (n : Nat) (v : Shift) : (s.putBits n v).rst = s.rst := rfl
@[simp] theorem putBits_agenda (s : State) (n : Nat) (v : Shift) : (s.putBits n v).agenda = s.agenda := rfl
@[simp] theorem putBits_reads (s : State) (n : Nat) (v : Shift) : (s.putBits n v).reads = s.reads := rfl
@[simp] theorem putBits_draws (s : State) (n : Nat) (v : Shift) : (s.putBits n v).draws = s.draws := rfl
@[simp] theorem putBits_base (s : State) (n : Nat) (v : Shift) : (s.putBits n v).base = s.base := rfl
@[simp] theorem putBits_nb (s : State) (n : Nat) (v : Shift) : (s.putBits n v).nb = s.nb := rfl

@[simp] theorem takeBits_dvd (s : State) (w : Nat) : (s.takeBits w).dvd = s.dvd := rfl
@[simp] theorem takeBits_rem (s : State) (w : Nat) : (s.takeBits w).rem = s.rem := rfl
@[simp] theorem takeBits_digit (s : State) (w : Nat) : (s.takeBits w).digit = s.digit := rfl
@[simp] theorem takeBits_ofs (s : State) (w : Nat) : (s.takeBits w).ofs = s.ofs := rfl
@[simp] theorem takeBits_c (s : State) (w : Nat) : (s.takeBits w).c = s.c := rfl
@[simp] theorem takeBits_pacc (s : State) (w : Nat) : (s.takeBits w).pacc = BitVec.ofNat 12 (s.pacc.toNat % 2 ^ (s.pcnt.toNat - w)) := rfl
@[simp] theorem takeBits_pcnt (s : State) (w : Nat) : (s.takeBits w).pcnt = BitVec.ofNat 4 (s.pcnt.toNat - w) := rfl
@[simp] theorem takeBits_pdir (s : State) (w : Nat) : (s.takeBits w).pdir = s.pdir := rfl
@[simp] theorem takeBits_pout (s : State) (w : Nat) : (s.takeBits w).pout = (s.pacc >>> (s.pcnt.toNat - w)).setWidth 8 := rfl
@[simp] theorem takeBits_err (s : State) (w : Nat) : (s.takeBits w).err = s.err := rfl
@[simp] theorem takeBits_errcode (s : State) (w : Nat) : (s.takeBits w).errcode = s.errcode := rfl
@[simp] theorem takeBits_busy (s : State) (w : Nat) : (s.takeBits w).busy = s.busy := rfl
@[simp] theorem takeBits_pend (s : State) (w : Nat) : (s.takeBits w).pend = s.pend := rfl
@[simp] theorem takeBits_rst (s : State) (w : Nat) : (s.takeBits w).rst = s.rst := rfl
@[simp] theorem takeBits_agenda (s : State) (w : Nat) : (s.takeBits w).agenda = s.agenda := rfl
@[simp] theorem takeBits_reads (s : State) (w : Nat) : (s.takeBits w).reads = s.reads := rfl
@[simp] theorem takeBits_draws (s : State) (w : Nat) : (s.takeBits w).draws = s.draws := rfl
@[simp] theorem takeBits_base (s : State) (w : Nat) : (s.takeBits w).base = s.base := rfl
@[simp] theorem takeBits_nb (s : State) (w : Nat) : (s.takeBits w).nb = s.nb := rfl

/-! Facts about one update after another, and updates that change nothing. -/

theorem latch_of_err {s : State} (h : s.err = true) (e : ErrCode) : s.latch e = s := by simp [latch, h]

theorem latch_of_not_err {s : State} (h : s.err = false) (e : ErrCode) :
    s.latch e = { s with err := true, errcode := e.code } := by simp [latch, h]

theorem latch_latch (s : State) (e f : ErrCode) : (s.latch e).latch f = s.latch e := latch_of_err (latch_err s e) f

theorem clearError_of_not_err {s : State} (h : s.err = false) (hc : s.errcode = 0#4) : s.clearError = s := by
  cases s; simp_all [clearError]

theorem releaseRst_of_not_rst {s : State} (h : s.rst = false) : s.releaseRst = s := by simp [releaseRst, h]

theorem releaseRst_of_rst {s : State} (h : s.rst = true) : s.releaseRst = { s.applyReset with rst := false } := by
  simp [releaseRst, h]

@[simp] theorem releaseRst_rst (s : State) : s.releaseRst.rst = false := by
  unfold releaseRst; split <;> simp_all

@[simp] theorem releaseRst_agenda (s : State) : s.releaseRst.agenda = s.agenda := by
  unfold releaseRst; split <;> rfl

@[simp] theorem releaseRst_base (s : State) : s.releaseRst.base = s.base := by
  unfold releaseRst; split <;> rfl

@[simp] theorem releaseRst_nb (s : State) : s.releaseRst.nb = s.nb := by
  unfold releaseRst; split <;> rfl

theorem applyReset_applyReset (s : State) : s.applyReset.applyReset = s.applyReset := rfl

theorem endCommand_accept (s : State) (w : Word) : (s.accept w).endCommand = { s with pend := w, busy := false } := rfl

end Sys2Proof.Machine.State
end

