-- ==== Sys2Proof/Laws/Dividend.lean ====
section
/-!
SUPPORT. The dividend stays within its `8*NB` bits: a byte shifted in after the top byte was found 0, the quotient of the
byte-serial division, and a slice replaced; and what a replaced slice reads back.
-/
namespace Sys2Proof.Machine

/-- A byte shifted in below a zero top byte. -/
theorem shiftByte_lt {nb d b : Nat} (hn : 0 < nb) (h : topByte nb d = 0) (hb : b < 2 ^ 8) : d * 256 + b < 256 ^ nb := by
  have hd : d < 256 ^ (nb - 1) := (Nat.div_eq_zero_iff_lt (by positivity)).1 h
  have hp : 256 ^ nb = 256 ^ (nb - 1) * 256 := by rw [← Nat.pow_succ]; congr 1; omega
  omega

theorem divideByte_lt {d q r b n : Nat} (hd : 0 < d) (hq : q < n) (hr : r < d) (hb : b < 256) :
    (divideByte d (q, r) b).1 < n * 256 ∧ (divideByte d (q, r) b).2 < d := by
  have ht : (r * 256 + b) / d < 256 := (Nat.div_lt_iff_lt_mul hd).2 (by nlinarith)
  exact ⟨by simp only [divideByte]; omega, Nat.mod_lt _ hd⟩

/-- After `i` bytes the quotient fits in `i` bytes, and the remainder is below the divisor. -/
theorem divideBytes_lt {nb A d : Nat} (hd : 0 < d) (i : Nat) :
    (((List.range i).map (dividendByte nb A)).foldl (divideByte d) (0, 0)).1 < 256 ^ i ∧
      (((List.range i).map (dividendByte nb A)).foldl (divideByte d) (0, 0)).2 < d := by
  induction i with
  | zero => exact ⟨Nat.one_pos, hd⟩
  | succ i ih =>
    rw [List.range_succ, List.map_append, List.foldl_append, Nat.pow_succ]
    exact divideByte_lt hd ih.1 ih.2 (Nat.mod_lt _ (by decide))

theorem longDivide_lt (nb A : Nat) {d : Nat} (hd : 0 < d) : (longDivide nb A d).1 < 256 ^ nb := (divideBytes_lt hd nb).1

/-- The bits of a dividend with slice `k` replaced. -/
theorem writeSlice_testBit (nb d k : Nat) (v : Word) (b : Nat) :
    (writeSlice nb d k v).testBit b =
      if sliceLow nb k ≤ b ∧ b < sliceLow nb k + 32 then v.getLsbD (b - sliceLow nb k) else d.testBit b := by
  unfold writeSlice
  simp only
  generalize sliceLow nb k = low
  have hv : v.toNat < 2 ^ 32 := v.isLt
  have hlow : d % 2 ^ low < 2 ^ low := Nat.mod_lt _ (by positivity)
  have hmid : v.toNat * 2 ^ low + d % 2 ^ low < 2 ^ (low + 32) := by
    rw [Nat.pow_add, Nat.mul_comm (2 ^ low)]; nlinarith [Nat.mul_le_mul_right (2 ^ low) (Nat.lt_iff_add_one_le.1 hv)]
  rw [Nat.add_assoc, Nat.mul_comm (d / _), Nat.testBit_two_pow_mul_add _ hmid]
  by_cases h1 : b < low + 32
  · rw [if_pos h1, Nat.mul_comm v.toNat, Nat.testBit_two_pow_mul_add _ hlow]
    by_cases h2 : b < low
    · rw [if_pos h2, if_neg (by omega), Nat.testBit_mod_two_pow]; simp [h2]
    · rw [if_neg h2, if_pos (by omega)]; rfl
  · rw [if_neg h1, if_neg (by omega), Nat.testBit_div_two_pow]; congr 1; omega

/-- A slice replaced inside the dividend leaves it within its `nb` bytes. -/
theorem writeSlice_lt {nb d k : Nat} (v : Word) (hd : d < 256 ^ nb) (hk : 4 * k + 4 ≤ nb) : writeSlice nb d k v < 256 ^ nb := by
  have hp : 256 ^ nb = 2 ^ (8 * nb) := by rw [Nat.pow_mul]
  rw [hp] at hd ⊢
  apply Nat.lt_pow_two_of_testBit
  intro b hb
  rw [writeSlice_testBit, if_neg (by unfold sliceLow; omega)]
  exact Nat.testBit_lt_two_pow (lt_of_lt_of_le hd (Nat.pow_le_pow_right (by decide) hb))

end Sys2Proof.Machine
end

