-- ==== Sys2Proof/Laws/Bus.lean ====
section
/-!
SUPPORT. What a host access can do, said once for reads and once for writes, and where an aligned access inside the window goes.
-/
namespace Sys2Proof.Machine

/-- An aligned 32-bit access inside the window reaches the word at its offset. -/
theorem reach_word (base off : Nat) (h4 : off % 4 = 0) (hw : off < 256) : reach base (base + off) 4 = .word off := by
  unfold reach
  rw [if_neg (by simp only [Config.windowBytes]; omega), if_pos ⟨rfl, by omega, by omega⟩]
  simp

/-- An access that reaches a word is an aligned 32-bit access inside the window. -/
theorem reach_word_inv {base addr size off : Nat} (h : reach base addr size = .word off) :
    size = 4 ∧ addr = base + off ∧ off % 4 = 0 ∧ off < 256 := by
  unfold reach at h
  split at h
  · cases h
  · rename_i hin
    split at h
    · rename_i hal
      cases h
      simp only [Config.windowBytes] at hin
      exact ⟨hal.1, by omega, hal.2.2, by omega⟩
    · cases h

theorem ofOffset_cksym (nb i : Nat) (h : i < 8) : Reg.ofOffset nb (0x040 + 4 * i) = .cksym i := by
  unfold Reg.ofOffset
  repeat rw [if_neg (by omega)]
  rw [if_pos (by omega), show (0x040 + 4 * i - 0x040) / 4 = i by omega]

theorem ofOffset_dvd (nb k : Nat) (h : 4 * k < nb) : Reg.ofOffset nb (0x080 + 4 * k) = .dvd k := by
  unfold Reg.ofOffset
  repeat rw [if_neg (by omega)]
  rw [if_pos (by omega), show (0x080 + 4 * k - 0x080) / 4 = k by omega]

theorem ite_eq_cases {p : Prop} [Decidable p] {a b r : Reg} (h : (if p then a else b) = r) : (p ∧ a = r) ∨ (¬p ∧ b = r) := by
  by_cases hp : p
  · exact .inl ⟨hp, by rwa [if_pos hp] at h⟩
  · exact .inr ⟨hp, by rwa [if_neg hp] at h⟩

theorem ofOffset_eq_cmd {nb off : Nat} (h : Reg.ofOffset nb off = .cmd) : off = 0x010 := by
  unfold Reg.ofOffset at h
  iterate 15 (obtain ⟨hc, h⟩ | ⟨-, h⟩ := ite_eq_cases h; · first | exact hc | cases h)
  cases h

theorem ofOffset_eq_ctrl {nb off : Nat} (h : Reg.ofOffset nb off = .ctrl) : off = 0x008 := by
  unfold Reg.ofOffset at h
  iterate 15 (obtain ⟨hc, h⟩ | ⟨-, h⟩ := ite_eq_cases h; · first | exact hc | cases h)
  cases h

theorem ofOffset_eq_dvd {nb off k : Nat} (h : Reg.ofOffset nb off = .dvd k) :
    k = (off - 0x080) / 4 ∧ 0x080 ≤ off ∧ off < 0x080 + nb := by
  unfold Reg.ofOffset at h
  iterate 15 (obtain ⟨hc, h⟩ | ⟨-, h⟩ := ite_eq_cases h; · first | exact ⟨(Reg.dvd.inj h).symm, hc⟩ | cases h)
  cases h

/-- The writable registers stand at CMD, CTRL and the DVD window only. -/
theorem ofOffset_writable {nb off : Nat} (h4 : off % 4 = 0)
    (h : Reg.ofOffset nb off = .cmd ∨ Reg.ofOffset nb off = .ctrl ∨ ∃ k, Reg.ofOffset nb off = .dvd k) :
    off = 0x010 ∨ off = 0x008 ∨ ∃ k, 4 * k < nb ∧ off = 0x080 + 4 * k := by
  obtain h | h | ⟨k, h⟩ := h
  · exact .inl (ofOffset_eq_cmd h)
  · exact .inr (.inl (ofOffset_eq_ctrl h))
  · obtain ⟨rfl, hl, hu⟩ := ofOffset_eq_dvd h
    exact .inr (.inr ⟨(off - 0x080) / 4, by omega, by omega⟩)

/-- An ERRCODE from 0 to 10 is shown. -/
theorem showsReservedCode_of_le {s : State} (h : s.errcode.toNat ≤ 10) (r : Reg) : showsReservedCode r s = false := by
  simp only [showsReservedCode, Bool.and_eq_false_imp, decide_eq_false_iff_not]
  omega

/-- A read that leaves a next state changes only what was read and the count of draws. -/
theorem busRead_cases {addr size : Nat} {s t : State} (h : busRead addr size s = .next t) :
    (∃ v, t = s.returnRead v) ∨ ∃ f, t = s.returnDraw f := by
  unfold busRead at h
  split at h
  · cases h; exact .inr ⟨_, rfl⟩
  · cases h
  · rename_i off _
    generalize Reg.ofOffset s.nb off = r at h
    split at h
    · cases h; exact .inr ⟨_, rfl⟩
    · split at h
      · cases h
        cases r
        all_goals first | exact .inl ⟨_, rfl⟩ | exact .inr ⟨_, rfl⟩
      · split at h
        · cases h
        · cases h; exact .inl ⟨_, rfl⟩

theorem orOverrun_of_busy {s : State} (h : s.busy = true) (t : State) : s.orOverrun t = s.latch .overrun := by
  simp [State.orOverrun, h]

theorem orOverrun_of_idle {s : State} (h : s.busy = false) (t : State) : s.orOverrun t = t := by
  simp [State.orOverrun, h]

/-- What a write of `v` to the register `r` can do: nothing, an overrun latched, a command accepted, a new OFS, or a slice of DVD
replaced. -/
inductive Written (r : Reg) (v : Word) (s : State) : State → Prop where
  | ignored : Written r v s s
  | overrun (hb : s.busy = true) : Written r v s (s.latch .overrun)
  | accepted (hr : r = .cmd) (hb : s.busy = false) (ha : acceptsWord s v = true) : Written r v s (s.accept v)
  | ofs (hr : r = .ctrl) (hb : s.busy = false) : Written r v s { s with ofs := v.setWidth 8 }
  | dvd (k : Nat) (hr : r = .dvd k) (hb : s.busy = false) : Written r v s { s with dvd := writeSlice s.nb s.dvd k v }

theorem orOverrun_written {r : Reg} {v : Word} {s t : State} (h : s.busy = false → Written r v s t) :
    Written r v s (s.orOverrun t) := by
  cases hb : s.busy
  · rw [orOverrun_of_idle hb]; exact h hb
  · rw [orOverrun_of_busy hb]; exact .overrun hb

theorem regWrite_cases (r : Reg) (v : Word) (s : State) : Written r v s (regWrite r v s) := by
  cases r with
  | cmd =>
    refine orOverrun_written fun hb => ?_
    split
    · exact .accepted rfl hb ‹_›
    · exact .ignored
  | ctrl => exact orOverrun_written fun hb => .ofs rfl hb
  | dvd k => exact orOverrun_written fun hb => .dvd k rfl hb
  | id | cfg | status | rem | digit | pmdClo | pmdChi | pmdRlo | pmdRhi | pkrStat | pkrOut | cksym _ | reserved =>
    exact .ignored

/-- A write that leaves a next state: nothing changed, or with RST released the write of the register at an aligned offset. -/
theorem busWrite_cases {addr size : Nat} {v : Word} {s t : State} (h : busWrite addr size v s = .next t) :
    t = s ∨ (s.rst = false ∧ ∃ off, addr = s.base + off ∧ off % 4 = 0 ∧ off < 256 ∧
      t = regWrite (Reg.ofOffset s.nb off) v s) := by
  unfold busWrite at h
  split at h
  · cases h; exact .inl rfl
  · cases h
  · rename_i off hr
    obtain ⟨-, ha, h4, hw⟩ := reach_word_inv hr
    cases h
    cases hrst : s.rst
    · exact .inr ⟨rfl, off, ha, h4, hw, by simp⟩
    · exact .inl (by simp)

/-- A write to an aligned word of the window leaves DVD within its `8*NB` bits. -/
theorem Written.dvd_lt {off : Nat} {v : Word} {s t : State} (h : Written (Reg.ofOffset s.nb off) v s t) (h4 : off % 4 = 0)
    (hn : s.nb % 4 = 0) (hd : s.dvd < 256 ^ s.nb) : t.dvd < 256 ^ s.nb := by
  cases h with
  | ignored => exact hd
  | overrun => simpa using hd
  | accepted => simpa using hd
  | ofs => exact hd
  | dvd k hr =>
    obtain ⟨rfl, hl, hu⟩ := ofOffset_eq_dvd hr
    exact writeSlice_lt v hd (by omega)

end Sys2Proof.Machine
end

