-- ==== Sys2Proof/Laws/Exec.lean ====
section
/-!
SUPPORT. What a command can do, said once: every command leaves a next state, and which updates of the state it can make.
-/
namespace Sys2Proof.Machine

/-- What one command can do to the state, by unit: nothing, an error latched, the latch cleared, the block reset, new divider
registers with a dividend that fits, a new accumulator, or new packer registers. -/
inductive Effect (s : State) : State → Prop where
  | unchanged : Effect s s
  | latched (e : ErrCode) (he : e ≠ .overrun) : Effect s (s.latch e)
  | cleared : Effect s s.clearError
  | reset : Effect s s.applyReset
  | divider (d : Nat) (r g : Byte) (hd : 0 < s.nb → s.dvd < 256 ^ s.nb → d < 256 ^ s.nb) :
    Effect s { s with dvd := d, rem := r, digit := g }
  | polymod (c : Acc) : Effect s { s with c := c }
  | packer (a : Shift) (n : BitVec 4) (p : Dir) (o : Byte) : Effect s { s with pacc := a, pcnt := n, pdir := p, pout := o }

theorem divisorError_ne_overrun {d : BitVec 9} {m : DigitMap} {e : ErrCode} (h : divisorError d m = some e) :
    e ≠ .overrun := by
  unfold divisorError at h
  split at h
  · cases h; decide
  · split at h
    · cases h; decide
    · split at h
      · cases h; decide
      · cases h

/-- A divisor that raises no error is not 0. -/
theorem divisor_pos {d : BitVec 9} {m : DigitMap} (h : divisorError d m = none) : 0 < d.toNat := by
  unfold divisorError at h
  split at h
  · cases h
  · omega

/-- A command that is raised or done leaves the state it says. -/
@[simp] theorem done_eq (s : State) : done s = .next s := rfl
@[simp] theorem raise_eq (e : ErrCode) (s : State) : raise e s = .next (s.latch e) := rfl

theorem execDivShb_effect (b : Byte) (s : State) : ∃ t, execDivShb b s = .next t ∧ Effect s t := by
  unfold execDivShb
  split
  · exact ⟨_, rfl, .latched _ (by decide)⟩
  · rename_i h
    exact ⟨_, rfl, .divider _ s.rem s.digit fun hn _ => shiftByte_lt hn (not_not.1 h) b.isLt⟩

theorem execDivStep_effect (d : BitVec 9) (m : DigitMap) (s : State) : ∃ t, execDivStep d m s = .next t ∧ Effect s t := by
  unfold execDivStep
  split
  · rename_i e h; exact ⟨_, rfl, .latched e (divisorError_ne_overrun h)⟩
  · rename_i h
    exact ⟨_, rfl, .divider _ _ _ fun _ _ => longDivide_lt _ _ (divisor_pos h)⟩

theorem execPkrPut8_effect (b : Byte) (s : State) : ∃ t, execPkrPut8 b s = .next t ∧ Effect s t := by
  unfold execPkrPut8
  split
  · exact ⟨_, rfl, .latched _ (by decide)⟩
  · split
    · exact ⟨_, rfl, .latched _ (by decide)⟩
    · exact ⟨_, rfl, .packer _ _ s.pdir s.pout⟩

theorem execPkrPut5_effect (x : Sym) (s : State) : ∃ t, execPkrPut5 x s = .next t ∧ Effect s t := by
  unfold execPkrPut5
  split
  · exact ⟨_, rfl, .latched _ (by decide)⟩
  · split
    · exact ⟨_, rfl, .latched _ (by decide)⟩
    · exact ⟨_, rfl, .packer _ _ s.pdir s.pout⟩

theorem execPkrGet_effect (s : State) : ∃ t, execPkrGet s = .next t ∧ Effect s t := by
  unfold execPkrGet
  split
  · exact ⟨_, rfl, .latched _ (by decide)⟩
  · exact ⟨_, rfl, .packer _ _ s.pdir _⟩

theorem execPkrFlush_effect (s : State) : ∃ t, execPkrFlush s = .next t ∧ Effect s t := by
  unfold execPkrFlush
  split
  · exact ⟨_, rfl, .latched _ (by decide)⟩
  · split
    · exact ⟨_, rfl, .unchanged⟩
    · split
      · exact ⟨_, rfl, .latched _ (by decide)⟩
      · exact ⟨_, rfl, .packer _ _ s.pdir _⟩

theorem execPkrEnd_effect (s : State) : ∃ t, execPkrEnd s = .next t ∧ Effect s t := by
  unfold execPkrEnd
  split
  · exact ⟨_, rfl, .latched _ (by decide)⟩
  · split
    · exact ⟨_, rfl, .latched _ (by decide)⟩
    · split
      · exact ⟨_, rfl, .latched _ (by decide)⟩
      · exact ⟨_, rfl, .packer _ _ s.pdir s.pout⟩

/-- Every command leaves a next state, by one of the effects above. -/
theorem exec_effect (i : Instr) (s : State) : ∃ t, exec i s = .next t ∧ Effect s t := by
  cases i with
  | sysNop => exact ⟨_, rfl, .unchanged⟩
  | sysClrerr => exact ⟨_, rfl, .cleared⟩
  | sysSrst => exact ⟨_, rfl, .reset⟩
  | divClr => exact ⟨_, rfl, .divider _ _ _ fun _ _ => by positivity⟩
  | divShb b => exact execDivShb_effect b s
  | divStep d m => exact execDivStep_effect d m s
  | pmdInit => exact ⟨_, rfl, .polymod _⟩
  | pmdSym x => exact ⟨_, rfl, .polymod _⟩
  | pmdChr a => exact ⟨_, rfl, .polymod _⟩
  | pkrInit d => exact ⟨_, rfl, .packer _ _ _ _⟩
  | pkrPut8 b => exact execPkrPut8_effect b s
  | pkrPut5 x => exact execPkrPut5_effect x s
  | pkrGet => exact execPkrGet_effect s
  | pkrFlush => exact execPkrFlush_effect s
  | pkrEnd => exact execPkrEnd_effect s

/-- An effect leaves the reset input, the agenda, the values read, the draws and the parameters alone. -/
theorem Effect.environment {s t : State} (h : Effect s t) :
    t.rst = s.rst ∧ t.agenda = s.agenda ∧ t.reads = s.reads ∧ t.draws = s.draws ∧ t.base = s.base ∧ t.nb = s.nb := by
  cases h <;> simp

/-- An effect sets BUSY to nothing but 0. -/
theorem Effect.busy {s t : State} (h : Effect s t) (hb : s.busy = false) : t.busy = false := by
  cases h <;> simp [hb]

end Sys2Proof.Machine
end

