-- ==== Sys2Proof/Laws/PerInstr.lean ====
section
/-!
SUPPORT. Statements made for every instruction, one lemma per constructor. The family `Layout`: an encoded instruction has its
own opcode in bits 7..0 and zeros in its format's reserved bits (spec/30_encoding.md R86), and its assembler form passes the
range checks (R91).
-/
namespace Sys2Proof.Laws.Layout

/-- The opcode field is the instruction's opcode, the reserved bits of its format are zero, and the instruction is
well-formed. -/
def Statement (i : Instr) : Prop :=
  opcField (encode i) = i.opcode.code ∧ encode i &&& i.opcode.format.reservedMask = 0#32 ∧ i.wellFormed = true

theorem sysNop : Statement .sysNop := by unfold Statement; decide
theorem sysClrerr : Statement .sysClrerr := by unfold Statement; decide
theorem sysSrst : Statement .sysSrst := by unfold Statement; decide
theorem divClr : Statement .divClr := by unfold Statement; decide
theorem pmdInit : Statement .pmdInit := by unfold Statement; decide
theorem pkrInit (d : Dir) : Statement (.pkrInit d) := by unfold Statement; cases d <;> decide
theorem pkrGet : Statement .pkrGet := by unfold Statement; decide
theorem pkrFlush : Statement .pkrFlush := by unfold Statement; decide
theorem pkrEnd : Statement .pkrEnd := by unfold Statement; decide

/-- An operand placed at bit 8 leaves the opcode byte alone. -/
theorem opcField_operand {n : Nat} (o : Byte) (x : BitVec n) : opcField (o.setWidth 32 ||| x.setWidth 32 <<< 8) = o := by
  ext i hi
  simp [opcField, BitVec.getLsbD_eq_getElem, hi]
  omega

/-- An operand of `n` bits placed at bit 8 has no bit at or above `8 + n`. -/
theorem operand_clear {n : Nat} (o : Byte) (x : BitVec n) (i : Nat) (hi : 8 + n ≤ i) :
    (o.setWidth 32 ||| x.setWidth 32 <<< 8).getLsbD i = false := by
  have ho : o.getLsbD i = false := BitVec.getLsbD_of_ge o i (by omega)
  have hx : x.getLsbD (i - 8) = false := BitVec.getLsbD_of_ge x (i - 8) (by omega)
  simp [ho, hx]

/-- A word with no bit at or above `k` is disjoint from a mask with no bit below `k`. -/
theorem disjoint_of_clear (w mask : Word) (k : Nat) (hw : ∀ i, k ≤ i → w.getLsbD i = false)
    (hm : ∀ i, i < k → mask.getLsbD i = false) : w &&& mask = 0#32 := by
  apply BitVec.eq_of_getLsbD_eq
  intro i _
  by_cases h : k ≤ i
  · simp [hw i h]
  · simp [hm i (by omega)]

theorem i8_mask_clear : ∀ i, i < 16 → Format.i8.reservedMask.getLsbD i = false := by decide
theorem i5_mask_clear : ∀ i, i < 13 → Format.i5.reservedMask.getLsbD i = false := by decide

theorem divShb (b : Byte) : Statement (.divShb b) :=
  ⟨opcField_operand _ b, disjoint_of_clear _ _ 16 (operand_clear _ b) i8_mask_clear,
    by simp [Instr.wellFormed, Instr.toAsm, AsmCmd.wellFormed, b.isLt]⟩

theorem pmdSym (x : Sym) : Statement (.pmdSym x) :=
  ⟨opcField_operand _ x, disjoint_of_clear _ _ 13 (operand_clear _ x) i5_mask_clear,
    by simp [Instr.wellFormed, Instr.toAsm, AsmCmd.wellFormed, x.isLt]⟩

theorem pmdChr (a : Byte) : Statement (.pmdChr a) :=
  ⟨opcField_operand _ a, disjoint_of_clear _ _ 16 (operand_clear _ a) i8_mask_clear,
    by simp [Instr.wellFormed, Instr.toAsm, AsmCmd.wellFormed, a.isLt]⟩

theorem pkrPut8 (b : Byte) : Statement (.pkrPut8 b) :=
  ⟨opcField_operand _ b, disjoint_of_clear _ _ 16 (operand_clear _ b) i8_mask_clear,
    by simp [Instr.wellFormed, Instr.toAsm, AsmCmd.wellFormed, b.isLt]⟩

theorem pkrPut5 (x : Sym) : Statement (.pkrPut5 x) :=
  ⟨opcField_operand _ x, disjoint_of_clear _ _ 13 (operand_clear _ x) i5_mask_clear,
    by simp [Instr.wellFormed, Instr.toAsm, AsmCmd.wellFormed, x.isLt]⟩

theorem divStep (d : BitVec 9) (m : DigitMap) : Statement (.divStep d m) := by
  refine ⟨?_, ?_, by simp [Instr.wellFormed, Instr.toAsm, AsmCmd.wellFormed, d.isLt]⟩ <;>
  · apply BitVec.eq_of_getLsbD_eq
    intro i hi
    simp only [opcField, encode, operandBits, Instr.opcode, Opcode.code, Opcode.format, Format.reservedMask]
    cases m <;> simp only [DigitMap.code] <;> interval_cases i <;> simp

end Sys2Proof.Laws.Layout
end

