-- ==== Sys2Proof/Laws/Step.lean ====
section
/-!
SUPPORT. What the completion of a command and one step of the machine can do, said once.
-/
namespace Sys2Proof.Machine

/-- The completion of a command leaves a next state: the decoded command's effect with BUSY fallen, or ILLEGAL_CMD latched. -/
theorem complete_effect (s : State) : ∃ t, complete s = .next t ∧ Effect s.endCommand t := by
  unfold complete
  cases decode s.pend with
  | ok i => exact exec_effect i s.endCommand
  | error e => exact ⟨_, rfl, .latched _ (by decide)⟩

/-- The block's turn leaves a next state: the completion, or nothing changed. -/
theorem takeTurn_effect (s : State) :
    ∃ t, takeTurn s = .next t ∧
      ((s.rst = false ∧ s.busy = true ∧ Effect s.endCommand t) ∨ (t = s ∧ (s.rst = true ∨ s.busy = false))) := by
  unfold takeTurn
  cases hr : s.rst <;> cases hb : s.busy
  · exact ⟨s, rfl, .inr ⟨rfl, .inr rfl⟩⟩
  · obtain ⟨t, ht, he⟩ := complete_effect s
    exact ⟨t, by simpa using ht, .inl ⟨rfl, rfl, he⟩⟩
  · exact ⟨s, rfl, .inr ⟨rfl, .inl rfl⟩⟩
  · exact ⟨s, rfl, .inr ⟨rfl, .inl rfl⟩⟩

/-! ### One step, by its next event -/

theorem step_of_nextEvent {s : State} {e : Event} (h : nextEvent s = e) : step s = serve e s.popEvent := by
  unfold step; rw [h]

/-- A write to a word of the window. -/
theorem step_write {s : State} {off : Nat} {v : Word} (h4 : off % 4 = 0) (h : off < 256)
    (hn : nextEvent s = .write (s.base + off) 4 v) :
    step s = .next (if s.rst then s.popEvent else regWrite (Reg.ofOffset s.nb off) v s.popEvent) := by
  rw [step_of_nextEvent hn]
  simp only [serve, busWrite, State.popEvent_base, reach_word _ _ h4 h, State.popEvent_rst]
  rfl

/-- A read of a word of the window. -/
theorem step_read {s : State} {off : Nat} (h4 : off % 4 = 0) (h : off < 256) (hn : nextEvent s = .read (s.base + off) 4) :
    step s =
      if s.rst then .next (s.popEvent.returnDraw id)
      else if s.busy then .next (readBusy (Reg.ofOffset s.nb off) s.popEvent)
      else if showsReservedCode (Reg.ofOffset s.nb off) s.popEvent then .fault .reservedErrorCode
      else .next (s.popEvent.returnRead (regRead (Reg.ofOffset s.nb off) s.popEvent)) := by
  rw [step_of_nextEvent hn]
  simp only [serve, busRead, State.popEvent_base, reach_word _ _ h4 h, State.popEvent_rst, State.popEvent_busy]
  rfl

/-- The block's turn. -/
theorem step_turn {s : State} (hn : nextEvent s = .blockTurn) : step s = takeTurn s.popEvent := step_of_nextEvent hn

/-- A step that leaves a next state, by the event it served. `s` stands for the state with the event taken off. -/
inductive Served (s : State) : State → Prop where
  | readValue (v : Word) : Served s (s.returnRead v)
  | readDraw (f : Word → Word) : Served s (s.returnDraw f)
  | ignored : Served s s
  | wrote (off : Nat) (v : Word) (h4 : off % 4 = 0) (hr : s.rst = false) (t : State)
      (hw : Written (Reg.ofOffset s.nb off) v s t) : Served s t
  | completed (t : State) (hr : s.rst = false) (hb : s.busy = true) (he : Effect s.endCommand t) : Served s t
  | asserted : Served s s.assertRst
  | released : Served s s.releaseRst

/-- Everything one event can do. -/
theorem serve_cases {e : Event} {s t : State} (h : serve e s = .next t) : Served s t := by
  cases e with
  | read addr size =>
    obtain ⟨v, rfl⟩ | ⟨f, rfl⟩ := busRead_cases h
    · exact .readValue v
    · exact .readDraw f
  | write addr size v =>
    obtain rfl | ⟨hr, off, -, h4, -, rfl⟩ := busWrite_cases h
    · exact .ignored
    · exact .wrote off v h4 hr _ (regWrite_cases _ v s)
  | blockTurn =>
    obtain ⟨t', ht, ⟨hr, hb, he⟩ | ⟨rfl, -⟩⟩ := takeTurn_effect s
    · cases h.symm.trans ht; exact .completed t hr hb he
    · cases h.symm.trans ht; exact .ignored
  | rstAssert => cases h; exact .asserted
  | rstRelease => cases h; exact .released

/-- Everything one step can do. -/
theorem step_cases {s t : State} (h : step s = .next t) : Served s.popEvent t := serve_cases h

end Sys2Proof.Machine
end

