-- ==== Sys2Proof/Tests/Slice0.lean ====
section
/-!
SUPPORT. The model's own tests: ill-formed terms the checks refuse, words written out from spec/30_encoding.md and what they
decode to, one step of each command with the values of spec/95_test_vectors.md, and for each statement with hypotheses a concrete
state and operands that meet them together.
-/
namespace Sys2Proof.Tests
open Sys2Proof Sys2Proof.Machine

/- One theorem at a time: evaluating many at once needs more threads than the checks' memory limit leaves room for. -/
set_option Elab.async false

/-! ### Well-formedness: each range check refuses an ill-formed term (R91, R93) -/

theorem test_divShb_range : (AsmCmd.divShb 256).wellFormed = false ∧ (AsmCmd.divShb 255).wellFormed = true := by decide
theorem test_divStep_range : (AsmCmd.divStep 512 .raw).wellFormed = false ∧ (AsmCmd.divStep 511 .raw).wellFormed = true := by
  decide
theorem test_pmdSym_range : (AsmCmd.pmdSym 32).wellFormed = false ∧ (AsmCmd.pmdSym 31).wellFormed = true := by decide
theorem test_pmdChr_range : (AsmCmd.pmdChr 256).wellFormed = false ∧ (AsmCmd.pmdChr 255).wellFormed = true := by decide
theorem test_pkrPut8_range : (AsmCmd.pkrPut8 256).wellFormed = false ∧ (AsmCmd.pkrPut8 255).wellFormed = true := by decide
theorem test_pkrPut5_range : (AsmCmd.pkrPut5 32).wellFormed = false ∧ (AsmCmd.pkrPut5 31).wellFormed = true := by decide
theorem test_pmdPrefix_range : (Pseudo.pmdPrefix [0x62, 256]).wellFormed 72 = false := by decide
theorem test_divLoad_range : (Pseudo.divLoad [256]).wellFormed 72 = false := by decide
theorem test_divLoad_length :
    (Pseudo.divLoad (List.replicate 73 0)).wellFormed 72 = false ∧ (Pseudo.divLoad (List.replicate 72 0)).wellFormed 72 = true := by
  decide
/-- The assembler refuses what the checks refuse. -/
theorem test_assemble_refuses : Asm.assemble (.pmdSym 32) = none ∧ Asm.assemble (.divStep 512 .b58) = none := by decide

/-! ### Decoding: words written out from R86, R88 and R91 -/

theorem test_decode_sys : decode 0x00000000#32 = .ok .sysNop ∧ decode 0x00000001#32 = .ok .sysClrerr ∧
    decode 0x00000002#32 = .ok .sysSrst := by decide
theorem test_decode_div : decode 0x00000010#32 = .ok .divClr ∧ decode 0x0000BD11#32 = .ok (.divShb 0xBD#8) ∧
    decode 0x00083A12#32 = .ok (.divStep 58#9 .b58) ∧ decode 0x00050012#32 = .ok (.divStep 256#9 .ofs) ∧
    decode 0x0001FF12#32 = .ok (.divStep 511#9 .raw) := by decide
theorem test_decode_pmd : decode 0x00000020#32 = .ok .pmdInit ∧ decode 0x00001321#32 = .ok (.pmdSym 19#5) ∧
    decode 0x00003A22#32 = .ok (.pmdChr 0x3A#8) := by decide
theorem test_decode_pkr : decode 0x00000030#32 = .ok (.pkrInit .pack) ∧ decode 0x00000130#32 = .ok (.pkrInit .unpack) ∧
    decode 0x0000FF31#32 = .ok (.pkrPut8 0xFF#8) ∧ decode 0x00001C32#32 = .ok (.pkrPut5 28#5) ∧
    decode 0x00000033#32 = .ok .pkrGet ∧ decode 0x00000034#32 = .ok .pkrFlush ∧ decode 0x00000035#32 = .ok .pkrEnd := by decide
/-- Vectors D9d, D10, D10b, D20, D21, P6, P7, K12, S3, S4, S5, S8: illegal words, each by its reason. -/
theorem test_decode_illegal :
    decode 0x000C0012#32 = .error .illegalMap ∧ decode 0x000C3A12#32 = .error .illegalMap ∧
    decode 0x00023A12#32 = .error .reservedBitSet ∧ decode 0x00000110#32 = .error .reservedBitSet ∧
    decode 0x00010011#32 = .error .reservedBitSet ∧ decode 0x00002021#32 = .error .reservedBitSet ∧
    decode 0x00010022#32 = .error .reservedBitSet ∧ decode 0x00000330#32 = .error .reservedBitSet ∧
    decode 0x00000101#32 = .error .reservedBitSet ∧ decode 0x00000003#32 = .error .unassignedOpcode ∧
    decode 0x00000100#32 = .error .reservedBitSet ∧ decode 0x000000FF#32 = .error .unassignedOpcode := by decide
theorem test_decode_table_word : decodeTableWord 32 0x00083A12 = some (.divStep 58#9 .b58) ∧
    decodeTableWord 32 0x00000003 = none := by decide

/-! ### One step of each command, with the vectors' values -/

/-- The state after one step that runs the word `w`. -/
def runWord (w : Nat) (s : State) : Option State :=
  match step (s.withFetchWord 32 w) with
  | .next t => some t
  | .fault _ => none
  | .refused _ => none

/-- What a host sees of one command: the value of STATUS. -/
def statusAfter (w : Nat) (s : State) : Option Word := (runWord w s).map State.statusWord

/-- A state with a given dividend. -/
def dividend (n : Nat) : State := { State.reset with dvd := n }

/-- A state with a given accumulator. -/
def accumulator (n : Nat) : State := { State.reset with c := BitVec.ofNat 40 n }

/-- A state with a given packer. -/
def packer (dir : Dir) (n v : Nat) : State :=
  { State.reset with pdir := dir, pcnt := BitVec.ofNat 4 n, pacc := BitVec.ofNat 12 v }

/-- A state with an error latched. -/
def failed (code : BitVec 4) : State := { State.reset with err := true, errcode := code }

/-- SYS.NOP leaves STATUS at its reset value (R150). -/
theorem test_sysNop : statusAfter 0x00000000 State.reset = some 0x0000002C#32 := by decide +kernel
/-- S1b's third word. -/
theorem test_sysClrerr : statusAfter 0x00000001 (failed 2#4) = some 0x0000002C#32 := by decide +kernel
/-- S6. -/
theorem test_sysSrst : (runWord 0x00000002 { failed 6#4 with c := 0x23#40, ofs := 4#8, pacc := 3#12, pcnt := 2#4 }).map
    (fun t => (t.statusWord, t.ofs, t.packerWord)) = some (0x0000002C#32, 0#8, 0#32) := by decide +kernel
/-- D19. -/
theorem test_divClr : (runWord 0x00000010 { dividend 1234 with rem := 5#8, digit := 6#8, ofs := 9#8 }).map
    (fun t => (t.dvd, t.rem, t.digit, t.ofs)) = some (0, 0#8, 0#8, 9#8) := by decide +kernel
/-- S1b's last word. -/
theorem test_divShb : (runWord 0x00000711 (dividend 1)).map State.dvd = some 0x107 := by decide +kernel
/-- D11: the top byte is not zero. -/
theorem test_divShb_overflow : (runWord 0x00000011 { State.reset with dvd := writeSlice 72 0 0 0x01000000#32 }).map
    (fun t => (t.err, t.errcode, t.dvd / 2 ^ 544)) = some (true, 4#4, 0x01000000) := by decide +kernel
/-- D13. -/
theorem test_divStep_b58 : (runWord 0x00083A12 (dividend (2 ^ 63))).map (fun t => (t.dvd, t.rem, t.digit)) =
    some (0x234F72C234F72C2, 12#8, 0x44#8) := by decide +kernel
/-- D14. -/
theorem test_divStep_ofs : (runWord 0x00050012 { dividend 0x1020 with ofs := 0xF0#8 }).map
    (fun t => (t.dvd, t.rem, t.digit)) = some (0x10, 32#8, 0x10#8) := by decide +kernel
/-- P5. -/
theorem test_pmdInit : (runWord 0x00000020 (accumulator 0x2294869B5C)).map (fun t => (t.c, t.statusWord)) =
    some (1#40, 0x0000002C#32) := by decide +kernel
/-- P3c: all five generators. -/
theorem test_pmdSym_generators : (runWord 0x00000021 (accumulator 0xF800000000)).map State.c = some 0xA21A66A29F#40 := by decide +kernel
/-- P3d. -/
theorem test_pmdSym : (runWord 0x00000021 (accumulator 0xFB5F48F2FE)).map State.c = some 0xC9F378FD5F#40 := by decide +kernel
/-- P4-: and P4-0xFF. -/
theorem test_pmdChr : (runWord 0x00003A22 State.reset).map State.c = some 0x3A#40 ∧
    (runWord 0x0000FF22 State.reset).map State.c = some 0x3F#40 := by decide +kernel
/-- K13's last word. -/
theorem test_pkrInit : (runWord 0x00000130 (packer .pack 8 0x12)).map (fun t => (t.packerWord, t.pout)) =
    some (0x00000100#32, 0#8) := by decide +kernel
/-- K17's last word: the full width. -/
theorem test_pkrPut8 : (runWord 0x0000AB31 (packer .pack 4 3)).map (fun t => (t.packerWord, t.statusWord)) =
    some (0x03AB000C#32, 0x0000001C#32) := by decide +kernel
/-- K2's last word. -/
theorem test_pkrPut8_overflow : (runWord 0x00005A31 (packer .pack 8 0xA5)).map (fun t => (t.packerWord, t.statusWord)) =
    some (0x00A50008#32, 0x0000071E#32) := by decide +kernel
/-- K10's last word. -/
theorem test_pkrPut5 : (runWord 0x00000232 (packer .unpack 5 1)).map (fun t => (t.packerWord, t.statusWord)) =
    some (0x0022010A#32, 0x0000001C#32) := by decide +kernel
/-- K3. -/
theorem test_pkrPut5_mode : statusAfter 0x00000332 State.reset = some 0x0000052E#32 := by decide +kernel
/-- K1b and K4b: both output widths. -/
theorem test_pkrGet : (runWord 0x00000033 (packer .pack 8 0xFF)).map (fun t => (t.pout, t.packerWord)) =
      some (0x1F#8, 0x00070003#32) ∧
    (runWord 0x00000033 (packer .unpack 10 0x3FF)).map (fun t => (t.pout, t.packerWord)) = some (0xFF#8, 0x00030102#32) := by
  decide +kernel
/-- K9's last word. -/
theorem test_pkrGet_underflow : statusAfter 0x00000033 (packer .unpack 5 1) = some 0x0000060E#32 := by decide +kernel
/-- K1d's last word. -/
theorem test_pkrFlush : (runWord 0x00000034 (packer .pack 3 7)).map (fun t => (t.pout, t.packerWord, t.statusWord)) =
    some (0x1C#8, 0#32, 0x0000002C#32) := by decide +kernel
/-- K11's last word. -/
theorem test_pkrFlush_overflow : (runWord 0x00000034 (packer .pack 11 0x700)).map (fun t => (t.packerWord, t.statusWord)) =
    some (0x0700000B#32, 0x0000071E#32) := by decide +kernel
/-- K6's last word, and K5's: five bits left over. -/
theorem test_pkrEnd : (runWord 0x00000035 (packer .unpack 2 0)).map (fun t => (t.packerWord, t.statusWord)) =
      some (0x00000100#32, 0x0000002C#32) ∧
    (runWord 0x00000035 (packer .unpack 5 0)).map State.errcode = some 9#4 := by decide +kernel
/-- K4c's last word: padding that is not zero. -/
theorem test_pkrEnd_padding : statusAfter 0x00000035 (packer .unpack 2 3) = some 0x0000080E#32 := by decide +kernel
/-- D10: MAP = 3. -/
theorem test_illegal : (runWord 0x000C3A12 (dividend 77)).map (fun t => (t.errcode, t.dvd)) = some (1#4, 77) := by decide +kernel

/-! ### The bus -/

/-- The state after one step of an event. -/
def runEvent (e : Event) (s : State) : Option State :=
  match step { s with agenda := [e] } with
  | .next t => some t
  | .fault _ => none
  | .refused _ => none

/-- S14: the last DVD word is the least significant. -/
theorem test_write_dvd17 : (runEvent (.write 0x0C4 4 0x12345678#32) State.reset).map State.dvd = some 0x12345678 := by decide +kernel
/-- S14: the first DVD word reads back. -/
theorem test_read_dvd0 : (runEvent (.read 0x080 4) { State.reset with dvd := writeSlice 72 0 0 0x01000000#32 }).map State.reads =
    some [0x01000000#32] := by decide +kernel
/-- S16: the constants. -/
theorem test_read_constants : (runEvent (.read 0x000 4) State.reset).map State.reads = some [0x43414231#32] ∧
    (runEvent (.read 0x004 4) State.reset).map State.reads = some [0x00000C48#32] ∧
    (runEvent (.read 0x00C 4) State.reset).map State.reads = some [0x0000002C#32] := by decide +kernel
/-- S12: a CTRL write under BUSY. -/
theorem test_overrun : (runEvent (.write 0x008 4 0x30#32) { State.reset with busy := true }).map
    (fun t => (t.ofs, t.err, t.errcode)) = some (0#8, true, 10#4) := by decide +kernel
/-- S15: data writes work under ERR. -/
theorem test_data_write_under_err : (runEvent (.write 0x008 4 0x41#32) (failed 2#4)).map (fun t => (t.ofs, t.errcode)) =
    some (0x41#8, 2#4) := by decide +kernel
/-- P3: CKSYM3 and CKSYM7 of `0x98F2BC8E60`. -/
theorem test_cksym : (runEvent (.read 0x04C 4) (accumulator 0x98F2BC8E61)).map State.reads = some [11#32] ∧
    (runEvent (.read 0x05C 4) (accumulator 0x98F2BC8E61)).map State.reads = some [0#32] := by decide +kernel

/-- A block with NB = 128: CFG shows it, the window has 32 DVD words, and a byte fits above the 72nd (R4, R38, R53, R100). -/
theorem test_widest : (runEvent (.read 0x004 4) { State.reset with nb := 128 }).map State.reads = some [0x00000C80#32] ∧
    (runEvent (.write 0x0FC 4 7#32) { State.reset with nb := 128 }).map State.dvd = some 7 ∧
    (runWord 0x00000711 { State.reset with nb := 128, dvd := 256 ^ 72 }).map (fun t => (t.err, t.dvd)) =
      some (false, 256 ^ 73 + 7) := by decide +kernel

/-! ### The host's layer -/

/-- A text of lines, refused at a line or read. -/
def refusal (text : List String) : Option (Nat × String) :=
  match Asm.assembleText 72 (text.map String.toList) with
  | .error e => some (e.line, e.name)
  | .ok _ => none

/-- A line of PG1. -/
theorem test_assemble_text : (Asm.assembleText 72 ["top: div.b58 # one digit".toList]).toOption.map Asm.expandProgram =
    some [.label "top", .issue (.divStep (.lit 58) .b58), .wait] := by
  decide +kernel
/-- What is not the language is refused by name and line: an `end` that closes nothing, a block without its `end`, a label that is
not there, a label defined twice, a character without an ASCII code, a field without a width (R94, log 13). -/
theorem test_refusals : refusal ["sys.nop", "end"] = some (2, "end") ∧ refusal ["if 1 = 1", "sys.nop"] = some (1, "if") ∧
    refusal ["loop top while 1 = 1"] = some (1, "loop") ∧ refusal ["top:", "top:"] = some (2, "top:") ∧
    refusal ["pmd.chr 'é'"] = some (1, "pmd.chr") ∧ refusal ["out t[2:5]"] = some (1, "out") ∧
    refusal ["div.load"] = none := by decide +kernel

/-- What a host writes out, its lists and a program being given. -/
def outputOf (lists : List (String × List Nat)) (text : List String) : Option (List Asm.Output) :=
  match Asm.assembleText 72 (text.map String.toList) with
  | .error _ => none
  | .ok lines => match Asm.runProgram (Asm.expandProgram lines) 20 (Asm.HostState.start State.reset lists []) with
    | .ok h => some h.output
    | .error _ => none

/-- A host's list, a run of its elements and the host's arithmetic (R92). -/
theorem test_host_list : outputOf [("payload", [3, 1, 4, 1])] ["for x in payload[1..2], 9", "out 0x21 | x << 8", "end"] =
    some [.value 0x121, .value 0x421, .value 0x921] := by decide +kernel

/-- R145's two ends of the alphabet. -/
theorem test_alphabet : symbolChar 0#5 = 'q' ∧ symbolChar 31#5 = 'l' ∧ symbolOfChar 'P' = some 1#5 ∧ symbolOfChar 'b' = none := by
  decide +kernel

/-! ### Witnesses: for each statement with hypotheses, states and operands that meet them, at the ends of each clause's range -/

/-- A block of another size: the largest the parameter NB may take. -/
def widest : State := { State.reset with nb := 128 }

/-- An idle block with one event to come. -/
def idle (e : Event) : State := { State.reset with agenda := [e] }

/-- A block with the word `w` in flight and one event to come. -/
def inFlight (w : Word) (e : Event) : State := { State.reset with busy := true, pend := w, agenda := [e] }

/-- The statement's hypotheses hold of a next state that exists. -/
def reaches (r : Result) (p : State → Bool) : Bool :=
  match r with
  | .next t => p t
  | .fault _ => false
  | .refused _ => false

theorem reaches_iff (r : Result) (p : State → Bool) : reaches r p = true ↔ ∃ t, r = .next t ∧ p t = true := by
  cases r <;> simp [reaches]

theorem witness_EncodeOfDecodeIsTheWord : decode 0x00083A12#32 = .ok (.divStep 58#9 .b58) ∧
    decode 0x0001FF12#32 = .ok (.divStep 511#9 .raw) := by decide
theorem witness_WordIsCommandExactlyByTheTable :
    decode 0x00000130#32 = .ok (.pkrInit .unpack) ∧ ∀ i, decode (inFlight 0x00000003#32 .blockTurn).pend ≠ .ok i := by
  refine ⟨by decide, fun i h => ?_⟩
  cases h.symm.trans (show decode 0x00000003#32 = .error .unassignedOpcode by decide)
theorem witness_UnassignedOpcodesAreIllegal :
    ([0x03#32, 0x0F#32, 0x13#32, 0x1F#32, 0x23#32, 0x2F#32, 0x36#32, 0xFF#32].all fun w =>
      (inFlight w .blockTurn).err = false ∧ decode w = .error .unassignedOpcode) = true := by decide
theorem witness_AssemblerRefusesRatherThanTruncates :
    (AsmCmd.pkrPut5 31).wellFormed = true ∧ (AsmCmd.pkrPut5 32).wellFormed = false := by decide
theorem witness_StepRunsTheDecodedCommand :
    let s := State.reset.withFetchWord 32 0x00000010
    s.rst = false ∧ s.busy = true ∧ nextEvent s = .blockTurn ∧ decode s.pend = .ok .divClr := by decide +kernel
theorem witness_IssueThenWaitIsCommand :
    State.reset.rst = false ∧ State.reset.busy = false ∧ State.reset.agenda = [] := by decide +kernel
/-- Both clauses: an accepted word, SYS.CLRERR under ERR, and a word ignored under ERR. -/
theorem witness_ErrGatesCommandWords :
    let s := idle (.write 0x010 4 0x00000711#32)
    let f := { failed 2#4 with agenda := [.write 0x010 4 0x00000001#32] }
    let g := { failed 2#4 with agenda := [.write 0x010 4 0x00000711#32] }
    (s.rst = false ∧ s.busy = false ∧ nextEvent s = .write (s.base + 0x010) 4 0x00000711#32 ∧ s.err = false) ∧
    (f.rst = false ∧ f.busy = false ∧ nextEvent f = .write (f.base + 0x010) 4 0x00000001#32 ∧ f.err = true) ∧
    (g.rst = false ∧ g.busy = false ∧ nextEvent g = .write (g.base + 0x010) 4 0x00000711#32 ∧ g.err = true) := by
  decide +kernel
theorem witness_WritesUnderBusyLatchOverrun :
    ([0x010, 0x008, 0x080, 0x0C4].all fun off =>
      let s := inFlight 0x10#32 (.write off 4 5#32)
      Config.LegalNB s.nb ∧ s.rst = false ∧ s.busy = true ∧ nextEvent s = .write (s.base + off) 4 5#32) = true ∧
    0x080 = 0x080 + 4 * 0 ∧ 0x0C4 = 0x080 + 4 * 17 ∧ 17 < State.reset.nb / 4 := by decide +kernel
theorem witness_CommandInFlightCompletesWithinTheAgenda :
    let s := inFlight 0x10#32 (.read 0x00C 4)
    Machine.Inv s ∧ Specified s ∧ NoReset s ∧ s.busy = true := by decide +kernel
/-- The first and the last DVD word of the smallest and of the largest block, and CTRL. -/
theorem witness_DataWritesChangeOneField :
    ([0x080, 0x0C4, 0x008].all fun off =>
      let s := idle (.write off 4 5#32)
      Config.LegalNB s.nb ∧ s.rst = false ∧ s.busy = false ∧ nextEvent s = .write (s.base + off) 4 5#32) = true ∧
    17 < State.reset.nb / 4 ∧
    (let s := { widest with agenda := [.write (0x080 + 4 * 31) 4 5#32] }
     Config.LegalNB s.nb ∧ s.rst = false ∧ s.busy = false ∧ 31 < s.nb / 4 ∧
       nextEvent s = .write (s.base + (0x080 + 4 * 31)) 4 5#32) := by decide +kernel
theorem witness_ReadOnlyWritesAreIgnored :
    ([0x000, 0x00C, 0x07C, 0x0C8, 0x0FC].all fun off =>
      off % 4 = 0 ∧ off < 256 ∧ off ≠ 0x008 ∧ off ≠ 0x010 ∧ ¬(0x080 ≤ off ∧ off < 0x080 + State.reset.nb) ∧
      nextEvent (idle (.write off 4 5#32)) = .write ((idle (.write off 4 5#32)).base + off) 4 5#32) = true := by decide +kernel
/-- A byte at the first address, a misaligned word, a word that straddles the window's end, and the words beside the window. -/
theorem witness_AccessesOffTheMapStopOrPassBy :
    ([(0, 1), (2, 4), (254, 4)].all fun a =>
      let s := idle (.read a.1 a.2)
      s.base < a.1 + a.2 ∧ a.1 < s.base + 256 ∧ ¬(a.2 = 4 ∧ s.base ≤ a.1 ∧ (a.1 - s.base) % 4 = 0) ∧
        nextEvent s = .read a.1 a.2) = true ∧
    (let s := { idle (.read 0x3FC 4) with base := 0x400 }
     0x3FC + 4 ≤ s.base ∧ nextEvent s = .read 0x3FC 4) ∧
    (let s := { idle (.write 0x500 4 1#32) with base := 0x400 }
     s.base + 256 ≤ 0x500 ∧ nextEvent s = .write 0x500 4 1#32) := by decide +kernel
theorem witness_ReadsHaveNoSideEffects :
    (nextEvent (idle (.read 0x014 4)) = .read 0x014 4 ∧ reaches (step (idle (.read 0x014 4))) (fun _ => true) = true) ∧
    Machine.Inv State.reset ∧ State.reset.rst = false ∧ State.reset.busy = false ∧ 0x0FC % 4 = 0 ∧ 0x0FC < 256 := by
  decide +kernel
/-- Every offset of the map's two read statements, at the ends of its ranges. -/
theorem witness_RegisterReads :
    ([0x000, 0x004, 0x008, 0x00C, 0x010, 0x014, 0x018, 0x01C, 0x020, 0x024, 0x028, 0x02C, 0x030, 0x034, 0x038, 0x03C, 0x040, 0x05C,
      0x060, 0x07C, 0x080, 0x0C4, 0x0C8, 0x0FC].all fun off =>
      let s := idle (.read off 4)
      Config.LegalNB s.nb ∧ s.rst = false ∧ s.busy = false ∧ s.errcode.toNat ≤ 10 ∧
        nextEvent s = .read (s.base + off) 4) = true := by decide +kernel
theorem witness_ReadsUnderBusy :
    ([0x000, 0x004, 0x008, 0x00C, 0x0FC].all fun off =>
      let s := inFlight 0x10#32 (.read off 4)
      s.rst = false ∧ s.busy = true ∧ off % 4 = 0 ∧ off < 256 ∧ nextEvent s = .read (s.base + off) 4) = true := by
  decide +kernel
/-- The three control commands: a reserved bit set, under ERR = 1 and ERR = 0. -/
theorem witness_SysCommands :
    opcField 0x00000100#32 = 0x00#8 ∧ opcField 0x00000101#32 = 0x01#8 ∧ opcField 0x00000102#32 = 0x02#8 ∧
    (failed 2#4).err = true ∧ (failed 2#4).busy = false ∧ State.reset.err = false ∧ State.reset.busy = false ∧
    Machine.Inv State.reset ∧ (inFlight 0x10#32 .blockTurn).busy = true := by decide +kernel
/-- DIV.SHB's two ranges at their common end. -/
theorem witness_DivShbShiftsAByteIn :
    (let s := dividend (256 ^ 71 - 1)
     s.dvd < 256 ^ (s.nb - 1) ∧ 0 < s.nb) ∧
    (let s := dividend (256 ^ 71)
     256 ^ (s.nb - 1) ≤ s.dvd) ∧
    opcField 0x00010011#32 = 0x11#8 ∧ (0x00010011#32).extractLsb' 16 16 ≠ 0#16 := by decide +kernel
/-- DIV.STEP's divisors at the ends of their ranges, for every map and every error, and the largest dividend. -/
theorem witness_DivStepDividesInPlace :
    (let s := dividend (256 ^ 72 - 1)
     s.dvd < 256 ^ s.nb) ∧
    (1 ≤ (1#9).toNat ∧ (256#9).toNat ≤ 256 ∧ (58#9).toNat ≤ 58) ∧ (0#9).toNat = 0 ∧ 256 < (257#9).toNat ∧ 58 < (59#9).toNat ∧
    opcField 0x00023A12#32 = 0x12#8 ∧ 0x00023A12#32 &&& 0xFFF20000#32 ≠ 0#32 ∧ 0x000C3A12#32 &&& 0xFFF20000#32 = 0#32 ∧
    mapField 0x000C3A12#32 = 3#2 := by decide +kernel
theorem witness_ByteSerialDivisionIsExact : (0 < 58 ∧ 256 ^ 128 - 1 < 256 ^ 128) ∧ (dividend 1000).dvd < 256 ^ (dividend 1000).nb ∧
    1 ≤ (1#9).toNat ∧ (256#9).toNat ≤ 256 ∧ (58#9).toNat ≤ 58 := by decide +kernel
theorem witness_LoadingBytesBuildsTheirValue :
    State.reset.busy = false ∧ State.reset.err = false ∧ (List.replicate 72 0xFF#8).length ≤ State.reset.nb := by decide +kernel
theorem witness_DividendBytesStandInBigEndianWords :
    State.reset.nb % 4 = 0 ∧ 71 < State.reset.nb ∧ widest.nb % 4 = 0 ∧ 127 < widest.nb := by decide +kernel
theorem witness_RepeatedDivisionEmitsTheDigits :
    (dividend 1000).dvd < 256 ^ (dividend 1000).nb ∧
    (dividend 1000).busy = false ∧ (dividend 1000).err = false ∧ 2 ≤ (58#9).toNat ∧ (58#9).toNat ≤ 256 ∧ (58#9).toNat ≤ 58 ∧
    2 ≤ (2#9).toNat ∧ (256#9).toNat ≤ 256 ∧ (dividend 1000).dvd ≠ 0 ∧ State.reset.dvd = 0 := by decide +kernel
/-- Bits above the operands of the polymod's and the packer's words. -/
theorem witness_ReservedBits :
    opcField 0x00000120#32 = 0x20#8 ∧ opcField 0x00002021#32 = 0x21#8 ∧ (0x00002021#32).extractLsb' 13 19 ≠ 0#19 ∧
    opcField 0x00010022#32 = 0x22#8 ∧ (0x00010022#32).extractLsb' 16 16 ≠ 0#16 ∧ opcField 0x00000330#32 = 0x30#8 ∧
    (0x00000330#32).extractLsb' 9 23 ≠ 0#23 ∧ opcField 0x00010031#32 = 0x31#8 ∧ opcField 0x00002032#32 = 0x32#8 ∧
    opcField 0x00000133#32 = 0x33#8 ∧ opcField 0x00000134#32 = 0x34#8 ∧ opcField 0x00000135#32 = 0x35#8 ∧
    opcField 0x00000110#32 = 0x10#8 := by decide
theorem witness_IdleWithoutError : State.reset.busy = false ∧ State.reset.err = false := by decide +kernel
theorem witness_OnlyTheGeneratedChecksumVerifies : State.reset.busy = false ∧ State.reset.err = false ∧
    (List.replicate 8 (0#5 : Sym)).length = 8 := by decide +kernel
theorem witness_PutsAppendOneUnit :
    ((packer .pack 4 3).pdir = .pack ∧ (packer .pack 4 3).pcnt.toNat ≤ 4 ∧ Machine.Inv (packer .pack 4 3)) ∧
    ((packer .unpack 7 3).pdir = .unpack ∧ (packer .unpack 7 3).pcnt.toNat ≤ 7 ∧ Machine.Inv (packer .unpack 7 3)) ∧
    4 < (packer .pack 5 3).pcnt.toNat ∧ 7 < (packer .unpack 8 3).pcnt.toNat := by decide +kernel
/-- PKR.GET's two ranges at their common end, in both directions. -/
theorem witness_PkrGetTakesTheOldestUnit :
    5 ≤ (packer .pack 5 31).pcnt.toNat ∧ Machine.Inv (packer .pack 5 31) ∧ (packer .pack 4 15).pcnt.toNat < 5 ∧
    8 ≤ (packer .unpack 8 255).pcnt.toNat ∧ Machine.Inv (packer .unpack 8 255) ∧ (packer .unpack 7 127).pcnt.toNat < 8 := by
  decide +kernel
theorem witness_PkrFlushPadsOnTheRight :
    (1 ≤ (packer .pack 1 1).pcnt.toNat ∧ Machine.Inv (packer .pack 1 1)) ∧ (packer .pack 4 15).pcnt.toNat ≤ 4 ∧
    (packer .pack 0 0).pcnt = 0#4 ∧ 4 < (packer .pack 5 31).pcnt.toNat ∧ (packer .unpack 0 0).pdir = .unpack := by decide +kernel
theorem witness_PkrEndChecksThePadding :
    ((packer .unpack 4 0).pcnt.toNat ≤ 4 ∧ (packer .unpack 4 0).pacc = 0#12) ∧ 4 < (packer .unpack 5 0).pcnt.toNat ∧
    (packer .unpack 4 1).pacc ≠ 0#12 ∧ (packer .pack 0 0).pdir = .pack := by decide +kernel
theorem witness_PackerIsAQueueOfBits :
    Machine.Inv (packer .pack 4 15) ∧ Machine.Inv (packer .unpack 7 127) ∧
    outWidth (packer .unpack 12 4095).pdir ≤ (packer .unpack 12 4095).pcnt.toNat ∧ Machine.Inv (packer .unpack 12 4095) := by
  decide +kernel
/-- A hash of each length the table allows. -/
theorem witness_PayloadLayout :
    ([0#3, 1#3, 2#3, 3#3, 4#3, 5#3, 6#3, 7#3].all fun code =>
      8 * (List.replicate (hashBits code / 8) 0x76#8).length = hashBits code) = true := by decide +kernel
theorem witness_CommandsFrame :
    ([.divClr, .divShb 1#8, .divStep 58#9 .b58, .divStep 0#9 .raw, .pmdInit, .pmdSym 1#5, .pmdChr 1#8, .pkrInit .unpack,
      .pkrPut8 1#8, .pkrPut5 1#5, .pkrGet, .pkrFlush, .pkrEnd].all fun i => reaches (exec i State.reset) (fun _ => true)) = true := by
  decide +kernel
/-- A DIV.STEP by 0 in flight, and the same state under an earlier error. -/
theorem witness_FailedCommandChangesOnlyTheLatch :
    (inFlight 0x00000012#32 .blockTurn).err = false ∧ reaches (complete (inFlight 0x00000012#32 .blockTurn)) State.err = true := by
  decide +kernel
theorem witness_ErrorsDoNotNest :
    (let s := { inFlight 0x00000012#32 .blockTurn with err := true, errcode := 10#4 }
     s.err = true ∧ reaches (step s) State.err = true ∧ s.busy = true) ∧
    ((failed 2#4).err = true ∧ (failed 2#4).busy = false ∧ 0x00000711#32 ≠ 0x00000001#32 ∧ 0x00000711#32 ≠ 0x00000002#32) := by
  decide +kernel
/-- The three events: SYS.CLRERR, SYS.SRST, and the release of RST. -/
theorem witness_OnlyThreeEventsClearTheLatch :
    ([0x00000001#32, 0x00000002#32].all fun w =>
      let s := { inFlight w .blockTurn with err := true, errcode := 2#4 }
      s.err && reaches (step s) (fun t => !t.err)) = true ∧
    (let s := { failed 2#4 with rst := true, agenda := [.rstRelease] }
     s.err && reaches (step s) (fun t => !t.err)) = true := by decide +kernel
theorem witness_RstHoldsThenResetsTheBlock :
    nextEvent (idle .rstAssert) = .rstAssert ∧
    ([.blockTurn, .write 0x0FC 4 1#32, .read 0x000 4, .rstRelease].all fun e =>
      let s := { failed 2#4 with rst := true, busy := true, agenda := [e] }
      s.rst = true ∧ nextEvent s = e) = true := by decide +kernel
theorem witness_SysSrstEqualsRstRelease :
    State.reset.rst = false ∧
    (let s := inFlight 0x00000000#32 (.write 0x010 4 0x00000002#32)
     s.rst = false ∧ s.busy = true ∧ s.err = false ∧ nextEvent s = .write (s.base + 0x010) 4 0x00000002#32) := by decide +kernel
/-- The invariants' hypotheses hold of a state with a command in flight and a next state. -/
theorem witness_EveryStepKeepsTheInvariants :
    let s := inFlight 0x00000001#32 .blockTurn
    Machine.Inv s ∧ InFlight s ∧ reaches (step s) (fun _ => true) = true := by decide +kernel
/-- In-flight words under ERR: after an overrun, and SYS.SRST. -/
theorem witness_EveryStepKeepsInFlight :
    InFlight { inFlight 0x00000711#32 (.read 0x00C 4) with err := true, errcode := 10#4 } ∧
    InFlight { inFlight 0x00000002#32 (.read 0x00C 4) with err := true, errcode := 2#4 } := by decide +kernel
theorem witness_SpecifiedAccessesNeverStopTheMachine :
    let s := { State.reset with agenda := [.write 0x0FC 4 1#32, .read 0x100 1, .rstAssert, .rstRelease, .blockTurn] }
    Machine.Inv s ∧ Specified s := by decide +kernel

end Sys2Proof.Tests
end

section
/-!
PROOFS. Reads while BUSY = 1 (spec/00_scope.md R9).
-/
namespace Sys2Proof.Machine

/-- A read of a word of the window while BUSY = 1 and RST is released. -/
theorem step_read_of_busy {s : State} {off : Nat} (hr : s.rst = false) (hb : s.busy = true) (h4 : off % 4 = 0) (h : off < 256)
    (hn : nextEvent s = .read (s.base + off) 4) : step s = .next (readBusy (Reg.ofOffset s.nb off) s.popEvent) := by
  simp [step_read h4 h hn, hr, hb]

/-- STATUS under BUSY = 1 shows BUSY, whatever the draw (spec/10_state.md R40). -/
theorem busyStatus_getLsbD_zero (draw : Word) : (busyStatus draw).getLsbD 0 = true := by simp [busyStatus]

/-- What any register reads under BUSY = 1 is one value; only STATUS says something of it. -/
theorem readBusy_value (r : Reg) (s : State) :
    ∃ (v : Word) (n : Nat), readBusy r s = { s with reads := v :: s.reads, draws := n } ∧ (r = .status → v.getLsbD 0 = true) := by
  cases r with
  | id | cfg | ctrl => exact ⟨_, s.draws, rfl, nofun⟩
  | status => exact ⟨_, _, rfl, fun _ => busyStatus_getLsbD_zero _⟩
  | _ => exact ⟨_, _, rfl, nofun⟩

/-- CFG with its two fields written out (spec/10_state.md R38). -/
theorem cfgWord_eq (nb : Nat) : Config.cfgWord nb = BitVec.ofNat 32 (12 * 2 ^ 8 + nb) :=
  congrArg (BitVec.ofNat 32) (Nat.add_comm nb (12 * 2 ^ 8))

/-- Settles O20: the step is `readBusy` of the register at the offset, and `readBusy` says what each register reads. -/
theorem readsUnderBusy : Obligations.ReadsUnderBusy := by
  intro s off hr hb h4 h hn
  have hstep := step_read_of_busy hr hb h4 h hn
  refine ⟨?id, ?cfg, ?ctrl, ?any⟩
  case id => rintro rfl; exact hstep
  case cfg => rintro rfl; rw [← cfgWord_eq]; exact hstep
  case ctrl => rintro rfl; exact hstep
  case any =>
    obtain ⟨v, n, hv, hstatus⟩ := readBusy_value (Reg.ofOffset s.nb off) s.popEvent
    refine ⟨v, n, hstep.trans (congrArg _ hv), ?_⟩
    rintro rfl
    exact hstatus rfl

end Sys2Proof.Machine
end

section
/-!
PROOFS. The invariants of spec/10_state.md R35: what each command, the bus and the reset input do to them.
-/
namespace Sys2Proof.Machine

/-! ### The packer's bounds -/

/-- The packer's part of `Inv` (spec/10_state.md R30, R35). -/
def PackerBounds (s : State) : Prop :=
  s.pcnt.toNat ≤ 12 ∧ s.pacc.toNat < 2 ^ s.pcnt.toNat ∧ (s.pdir = .pack → s.pout.toNat < 32)

/-- `n` more bits, where the count stays within the shift register. -/
theorem PackerBounds.putBits {s : State} {n : Nat} {v : Shift} (h : PackerBounds s) (hn : s.pcnt.toNat + n ≤ 12)
    (hv : v.toNat < 2 ^ n) : PackerBounds (s.putBits n v) := by
  obtain ⟨-, hacc, hout⟩ := h
  have hcnt : (s.putBits n v).pcnt.toNat = s.pcnt.toNat + n := by
    simp only [State.putBits_pcnt, BitVec.toNat_add, BitVec.toNat_ofNat]; omega
  refine ⟨hcnt.trans_le hn, ?_, hout⟩
  rw [hcnt, State.putBits_pacc, BitVec.toNat_or]
  apply Nat.or_lt_two_pow
  · calc (s.pacc <<< n).toNat ≤ s.pacc.toNat * 2 ^ n := by
          rw [BitVec.toNat_shiftLeft, Nat.shiftLeft_eq]; exact Nat.mod_le _ _
      _ < 2 ^ s.pcnt.toNat * 2 ^ n := Nat.mul_lt_mul_of_pos_right hacc (Nat.two_pow_pos n)
      _ = 2 ^ (s.pcnt.toNat + n) := (Nat.pow_add ..).symm
  · exact hv.trans_le (Nat.pow_le_pow_right (by decide) (Nat.le_add_left ..))

/-- One output unit taken: the unit has at most `W` bits, so POUT is a symbol in PACK. -/
theorem PackerBounds.takeBits {s : State} (h : PackerBounds s) (hw : outWidth s.pdir ≤ s.pcnt.toNat) :
    PackerBounds (s.takeBits (outWidth s.pdir)) := by
  obtain ⟨hcnt, hacc, -⟩ := h
  refine ⟨?_, ?_, fun hp => ?_⟩
  · rw [State.takeBits_pcnt, BitVec.toNat_ofNat]; omega
  · rw [State.takeBits_pcnt, State.takeBits_pacc, BitVec.toNat_ofNat, BitVec.toNat_ofNat,
      Nat.mod_eq_of_lt (a := s.pcnt.toNat - _) (by omega)]
    exact (Nat.mod_le _ _).trans_lt (Nat.mod_lt _ (Nat.two_pow_pos _))
  · have hd : s.pdir = .pack := hp
    rw [hd, outWidth] at hw ⊢
    rw [State.takeBits_pout, BitVec.toNat_setWidth, BitVec.toNat_ushiftRight, Nat.shiftRight_eq_div_pow]
    refine (Nat.mod_le _ _).trans_lt ((Nat.div_lt_iff_lt_mul (Nat.two_pow_pos _)).2 (hacc.trans_le (le_of_eq ?_)))
    rw [show (32 : Nat) = 2 ^ 5 from rfl, ← Nat.pow_add, Nat.add_sub_cancel' hw]

/-- An empty packer, with an output that is a symbol in PACK. -/
theorem packerBounds_empty (s : State) {p : Dir} {o : Byte} (ho : p = .pack → o.toNat < 32) :
    PackerBounds { s with pacc := 0#12, pcnt := 0#4, pdir := p, pout := o } :=
  ⟨Nat.zero_le _, Nat.one_pos, ho⟩

/-- The symbol that PKR.FLUSH emits. -/
theorem symbolMask_lt (a : Shift) : ((a &&& 0x1F#12).setWidth 8).toNat < 32 := by
  rw [BitVec.toNat_setWidth, BitVec.toNat_and]
  exact (Nat.mod_le _ _).trans_lt (Nat.and_lt_two_pow (n := 5) _ (by decide))

/-! ### What each command can do -/

/-- What completing the command `i` can do to the state: as `Effect`, with the two commands that clear the latch named and
the packer kept within its bounds. -/
inductive Ran (s : State) : Instr → State → Prop where
  | unchanged {i : Instr} : Ran s i s
  | failed {i : Instr} (e : ErrCode) : Ran s i (s.latch e)
  | cleared : Ran s .sysClrerr s.clearError
  | reset : Ran s .sysSrst s.applyReset
  | divider {i : Instr} (d : Nat) (r g : Byte) (hd : 0 < s.nb → d < 256 ^ s.nb) :
    Ran s i { s with dvd := d, rem := r, digit := g }
  | polymod {i : Instr} (c : Acc) : Ran s i { s with c := c }
  | packer {i : Instr} (a : Shift) (n : BitVec 4) (p : Dir) (o : Byte)
    (hp : PackerBounds s → PackerBounds { s with pacc := a, pcnt := n, pdir := p, pout := o }) :
    Ran s i { s with pacc := a, pcnt := n, pdir := p, pout := o }

/-- A check that raises an error, before the rest of a command's rule. -/
theorem ran_of_check {p : Prop} [Decidable p] {e : ErrCode} {r : Result} {i : Instr} {s t : State}
    (h : (if p then raise e s else r) = .next t) (hr : ¬p → r = .next t → Ran s i t) : Ran s i t := by
  split at h
  · cases h; exact .failed e
  · exact hr ‹_› h

theorem execDivShb_ran {b : Byte} {s t : State} (h : execDivShb b s = .next t) : Ran s (.divShb b) t :=
  ran_of_check h fun htop h => by
    cases h
    exact .divider _ s.rem s.digit fun hn => shiftByte_lt hn (not_not.1 htop) b.isLt

theorem execDivStep_ran {d : BitVec 9} {m : DigitMap} {s t : State} (h : execDivStep d m s = .next t) :
    Ran s (.divStep d m) t := by
  unfold execDivStep at h
  split at h
  · cases h; exact .failed _
  · rename_i hd
    cases h; exact .divider _ _ _ fun _ => longDivide_lt _ _ (divisor_pos hd)

theorem execPkrPut8_ran {b : Byte} {s t : State} (h : execPkrPut8 b s = .next t) : Ran s (.pkrPut8 b) t :=
  ran_of_check h fun _ h => ran_of_check h fun hc h => by
    cases h
    exact .packer _ _ s.pdir s.pout fun hp => hp.putBits (by omega) (by rw [BitVec.toNat_setWidth]; omega)

theorem execPkrPut5_ran {x : Sym} {s t : State} (h : execPkrPut5 x s = .next t) : Ran s (.pkrPut5 x) t :=
  ran_of_check h fun _ h => ran_of_check h fun hc h => by
    cases h
    exact .packer _ _ s.pdir s.pout fun hp => hp.putBits (by omega) (by rw [BitVec.toNat_setWidth]; omega)

theorem execPkrGet_ran {s t : State} (h : execPkrGet s = .next t) : Ran s .pkrGet t :=
  ran_of_check h fun hc h => by
    cases h
    exact .packer _ _ s.pdir _ fun hp => hp.takeBits (not_lt.1 hc)

theorem execPkrFlush_ran {s t : State} (h : execPkrFlush s = .next t) : Ran s .pkrFlush t :=
  ran_of_check h fun _ h => by
    split at h
    · cases h; exact .unchanged
    · exact ran_of_check h fun _ h => by
        cases h
        exact .packer _ _ s.pdir _ fun _ => packerBounds_empty s fun _ => symbolMask_lt _

theorem execPkrEnd_ran {s t : State} (h : execPkrEnd s = .next t) : Ran s .pkrEnd t :=
  ran_of_check h fun _ h => ran_of_check h fun _ h => ran_of_check h fun _ h => by
    cases h
    exact .packer _ _ s.pdir s.pout fun hp => packerBounds_empty s hp.2.2

/-- Every command that leaves a next state, by one of the cases above. -/
theorem exec_ran {i : Instr} {s t : State} (h : exec i s = .next t) : Ran s i t := by
  cases i with
  | sysNop => cases h; exact .unchanged
  | sysClrerr => cases h; exact .cleared
  | sysSrst => cases h; exact .reset
  | divClr => cases h; exact .divider _ _ _ fun _ => by positivity
  | divShb b => exact execDivShb_ran h
  | divStep d m => exact execDivStep_ran h
  | pmdInit => cases h; exact .polymod _
  | pmdSym x => cases h; exact .polymod _
  | pmdChr a => cases h; exact .polymod _
  | pkrInit d => cases h; exact .packer _ _ _ _ fun _ => packerBounds_empty s fun _ => by decide
  | pkrPut8 b => exact execPkrPut8_ran h
  | pkrPut5 x => exact execPkrPut5_ran h
  | pkrGet => exact execPkrGet_ran h
  | pkrFlush => exact execPkrFlush_ran h
  | pkrEnd => exact execPkrEnd_ran h

/-- The completion of the command in PEND: the decoded command's rule with BUSY fallen, or ILLEGAL_CMD latched. -/
theorem complete_cases {s t : State} (h : complete s = .next t) :
    (∃ i, decode s.pend = .ok i ∧ Ran s.endCommand i t) ∨ t = s.endCommand.latch .illegalCmd := by
  unfold complete at h
  split at h
  · rename_i i hi; exact .inl ⟨i, hi, exec_ran h⟩
  · cases h; exact .inr rfl

/-- The block's turn: nothing, or the completion of a command in flight with RST released. -/
theorem takeTurn_cases {s t : State} (h : takeTurn s = .next t) :
    t = s ∨ (s.rst = false ∧ s.busy = true ∧ complete s = .next t) := by
  unfold takeTurn at h
  split at h
  · rename_i hb
    simp only [Bool.and_eq_true, Bool.not_eq_true'] at hb
    exact .inr ⟨hb.1, hb.2, h⟩
  · cases h; exact .inl rfl

/-! ### The invariants under each update -/

theorem errCode_bounds (e : ErrCode) : e.code ≠ 0#4 ∧ e.code.toNat ≤ 10 := by cases e <;> decide

theorem Inv.latch {s : State} (h : Inv s) (e : ErrCode) : Inv (s.latch e) := by
  cases he : s.err
  · obtain ⟨hcnt, hacc, -, -, hout, hnb, hdvd⟩ := h
    obtain ⟨hne, hle⟩ := errCode_bounds e
    rw [State.latch_of_not_err he]
    exact ⟨hcnt, hacc, iff_of_false hne nofun, hle, hout, hnb, hdvd⟩
  · rwa [State.latch_of_err he]

theorem Inv.clearError {s : State} (h : Inv s) : Inv s.clearError := by
  obtain ⟨hcnt, hacc, -, -, hout, hnb, hdvd⟩ := h
  exact ⟨hcnt, hacc, iff_of_true rfl rfl, Nat.zero_le _, hout, hnb, hdvd⟩

/-- The reset values meet the invariants, whatever the state before, for every legal NB. -/
theorem inv_applyReset {s : State} (hnb : Config.LegalNB s.nb) : Inv s.applyReset :=
  ⟨Nat.zero_le _, Nat.one_pos, iff_of_true rfl rfl, Nat.zero_le _, fun _ => (by decide : (0#8).toNat < 32), hnb,
    Nat.pow_pos (by decide)⟩

theorem Inv.dividend {s : State} (h : Inv s) {d : Nat} (hd : d < 256 ^ s.nb) : Inv { s with dvd := d } := by
  obtain ⟨hcnt, hacc, herr, hcode, hout, hnb, -⟩ := h
  exact ⟨hcnt, hacc, herr, hcode, hout, hnb, hd⟩

theorem Inv.packer {s : State} (h : Inv s) {a : Shift} {n : BitVec 4} {p : Dir} {o : Byte}
    (hp : PackerBounds { s with pacc := a, pcnt := n, pdir := p, pout := o }) :
    Inv { s with pacc := a, pcnt := n, pdir := p, pout := o } := by
  obtain ⟨-, -, herr, hcode, -, hnb, hdvd⟩ := h
  obtain ⟨hcnt, hacc, hout⟩ := hp
  exact ⟨hcnt, hacc, herr, hcode, hout, hnb, hdvd⟩

theorem Inv.packerBounds {s : State} (h : Inv s) : PackerBounds s := by
  obtain ⟨hcnt, hacc, -, -, hout, -, -⟩ := h
  exact ⟨hcnt, hacc, hout⟩

theorem Inv.legalNB {s : State} (h : Inv s) : Config.LegalNB s.nb := by
  obtain ⟨-, -, -, -, -, hnb, -⟩ := h
  exact hnb

theorem Inv.dvd_lt {s : State} (h : Inv s) : s.dvd < 256 ^ s.nb := by
  obtain ⟨-, -, -, -, -, -, hdvd⟩ := h
  exact hdvd

/-! ### The invariants under each event -/

/-- A command keeps the invariants. -/
theorem Ran.inv {i : Instr} {s t : State} (hr : Ran s i t) (h : Inv s) : Inv t := by
  cases hr with
  | unchanged => exact h
  | failed e => exact h.latch e
  | cleared => exact h.clearError
  | reset => exact inv_applyReset h.legalNB
  | divider d r g hd => exact h.dividend (hd (by have := h.legalNB; omega))
  | polymod => exact h
  | packer a n p o hp => exact h.packer (hp h.packerBounds)

/-- The completion of the command in PEND keeps the invariants; the fall of BUSY touches none of them. -/
theorem complete_inv {s t : State} (h : Inv s) (hc : complete s = .next t) : Inv t := by
  have hs : Inv s.endCommand := h
  obtain ⟨i, -, hr⟩ | rfl := complete_cases hc
  · exact hr.inv hs
  · exact hs.latch _

/-- A write to an aligned word of the window keeps the invariants. -/
theorem Written.inv {off : Nat} {v : Word} {s t : State} (hw : Written (Reg.ofOffset s.nb off) v s t) (h4 : off % 4 = 0)
    (h : Inv s) : Inv t := by
  have hd := hw.dvd_lt h4 h.legalNB.1 h.dvd_lt
  cases hw with
  | ignored => exact h
  | overrun => exact h.latch _
  | accepted => exact h
  | ofs => exact h
  | dvd => exact h.dividend hd

theorem releaseRst_inv {s : State} (h : Inv s) : Inv s.releaseRst := by
  cases hr : s.rst
  · rwa [State.releaseRst_of_not_rst hr]
  · rw [State.releaseRst_of_rst hr]; exact inv_applyReset h.legalNB

/-- Every event keeps the invariants. -/
theorem serve_inv {e : Event} {s t : State} (h : Inv s) (hs : serve e s = .next t) : Inv t := by
  cases e with
  | read addr size => obtain ⟨v, rfl⟩ | ⟨f, rfl⟩ := busRead_cases hs <;> exact h
  | write addr size v =>
    obtain rfl | ⟨-, off, -, h4, -, rfl⟩ := busWrite_cases hs
    · exact h
    · exact (regWrite_cases _ v s).inv h4 h
  | blockTurn =>
    obtain rfl | ⟨-, -, hc⟩ := takeTurn_cases hs
    · exact h
    · exact complete_inv h hc
  | rstAssert => cases hs; exact h
  | rstRelease => cases hs; exact releaseRst_inv h

/-- Settles O58: the invariants do not speak of the agenda, and every event keeps them. -/
theorem everyStepKeepsTheInvariants : Obligations.EveryStepKeepsTheInvariants := by
  intro s t h hs
  have hpop : Inv s.popEvent := h
  exact serve_inv hpop hs

/-- Settles O57: the state after reset is what a reset makes of itself, and no command is in flight in it. -/
theorem resetMeetsTheInvariants : Obligations.ResetMeetsTheInvariants :=
  ⟨inv_applyReset (s := State.reset) (by decide), fun hb => absurd hb (by decide)⟩

end Sys2Proof.Machine
end

section
/-!
PROOFS. How the latch is cleared (spec/60_exceptions.md R165): the one word of each of the two commands that do it, and no other
event but the release of RST.
-/
namespace Sys2Proof.Machine

/-! ### A decoded word -/

theorem opcode_code_of_ofByte {b : Byte} {o : Opcode} (h : Opcode.ofByte b = some o) : o.code = b := by
  simpa using List.find?_some h

theorem opcode_of_decodeFields {o : Opcode} {w : Word} {i : Instr} (h : decodeFields o w = .ok i) : i.opcode = o := by
  cases o with
  | divStep =>
    unfold decodeFields at h
    cases hm : DigitMap.ofField (mapField w) <;> simp only [hm] at h <;> cases h
    rfl
  | _ => cases h; rfl

/-- A word that decodes has its command's opcode in bits 7..0 and zeros in the reserved bits of the format
(spec/30_encoding.md R86, R88). -/
theorem decode_ok {w : Word} {i : Instr} (h : decode w = .ok i) :
    opcField w = i.opcode.code ∧ w &&& i.opcode.format.reservedMask = 0#32 := by
  unfold decode at h
  split at h
  · cases h
  · rename_i o ho
    split at h
    · rename_i hmask
      rw [opcode_of_decodeFields h, opcode_code_of_ofByte ho]
      exact ⟨rfl, hmask⟩
    · cases h

/-- A command without operands has one word: its opcode (spec/30_encoding.md R86, format N). -/
theorem word_of_decode_formatN {w : Word} {i : Instr} (h : decode w = .ok i) (hn : i.opcode.format = .n) :
    w = i.opcode.code.setWidth 32 := by
  obtain ⟨hop, hmask⟩ := decode_ok h
  rw [hn] at hmask
  rw [← hop]
  apply BitVec.eq_of_getLsbD_eq
  intro k hk
  by_cases h8 : k < 8
  · simp [opcField, h8, hk]
  · have hbit := congrArg (BitVec.getLsbD · k) hmask
    have hset : Format.n.reservedMask.getLsbD k = true := by interval_cases k <;> rfl
    simpa [hset, h8, opcField] using hbit

/-! ### Only three events clear the latch -/

/-- A command that leaves ERR = 0 where it was 1 is one of the two. -/
theorem Ran.clears {i : Instr} {s t : State} (hr : Ran s i t) (hs : s.err = true) (ht : t.err = false) :
    i = .sysClrerr ∨ i = .sysSrst := by
  cases hr with
  | cleared => exact .inl rfl
  | reset => exact .inr rfl
  | failed e => simp at ht
  | unchanged | divider | polymod | packer => simp [hs] at ht

theorem complete_clears {s t : State} (hc : complete s = .next t) (hs : s.err = true) (ht : t.err = false) :
    s.pend = 0x00000001#32 ∨ s.pend = 0x00000002#32 := by
  obtain ⟨i, hi, hr⟩ | rfl := complete_cases hc
  · obtain rfl | rfl := hr.clears hs ht
    · exact .inl (word_of_decode_formatN hi rfl)
    · exact .inr (word_of_decode_formatN hi rfl)
  · simp at ht

theorem Written.err {r : Reg} {v : Word} {s t : State} (hw : Written r v s t) (hs : s.err = true) : t.err = true := by
  cases hw with
  | overrun => exact State.latch_err s _
  | ignored | accepted | ofs | dvd => exact hs

/-- An event that leaves ERR = 0 where it was 1 is the release of RST or the completion of one of the two words. -/
theorem serve_clears {e : Event} {s t : State} (hs : s.err = true) (h : serve e s = .next t) (ht : t.err = false) :
    (s.rst = true ∧ e = .rstRelease) ∨
      (s.rst = false ∧ s.busy = true ∧ e = .blockTurn ∧ (s.pend = 0x00000001#32 ∨ s.pend = 0x00000002#32)) := by
  cases e with
  | read addr size => obtain ⟨v, rfl⟩ | ⟨f, rfl⟩ := busRead_cases h <;> simp [hs] at ht
  | write addr size v =>
    obtain rfl | ⟨-, off, -, -, -, rfl⟩ := busWrite_cases h
    · simp [hs] at ht
    · simp [(regWrite_cases _ v s).err hs] at ht
  | blockTurn =>
    obtain rfl | ⟨hr, hb, hc⟩ := takeTurn_cases h
    · simp [hs] at ht
    · exact .inr ⟨hr, hb, rfl, complete_clears hc hs ht⟩
  | rstAssert => cases h; simp [hs] at ht
  | rstRelease =>
    cases h
    cases hr : s.rst
    · simp [State.releaseRst_of_not_rst hr, hs] at ht
    · exact .inl ⟨rfl, rfl⟩

/-- Settles O53: taking the event off the agenda leaves ERR, and only the three events change it from 1 to 0. -/
theorem onlyThreeEventsClearTheLatch : Obligations.OnlyThreeEventsClearTheLatch := by
  intro s t hs h ht
  exact serve_clears (s := s.popEvent) hs h ht

end Sys2Proof.Machine
end

section
/-!
PROOFS. What the registers read while BUSY = 0 (spec/10_state.md R37 to R54), the flags of STATUS, and the reset values.
-/
namespace Sys2Proof.Machine

/-! ### One read of a word of the window -/

/-- A read with BUSY = 0 and RST released returns what the register at the offset reads, and changes nothing else. -/
theorem step_read_of_idle {s : State} {off : Nat} {r : Reg} (hrst : s.rst = false) (hb : s.busy = false)
    (hn : nextEvent s = .read (s.base + off) 4) (h4 : off % 4 = 0) (h : off < 256) (hreg : Reg.ofOffset s.nb off = r)
    (hcode : showsReservedCode r s = false) :
    step s = .next { s with agenda := s.agenda.tail, reads := regRead r s :: s.reads } := by
  have hpop : showsReservedCode r s.popEvent = false := hcode
  have hval : regRead r s.popEvent = regRead r s := by cases r <;> rfl
  have hstep : step s = .next (s.popEvent.returnRead (regRead r s)) := by
    simp [step_read h4 h hn, hrst, hb, hreg, hpop, hval]
  exact hstep

/-- The same for a register other than STATUS, with the value its rule gives. -/
theorem step_read_value {s : State} {off : Nat} {r : Reg} {v : Word} (hrst : s.rst = false) (hb : s.busy = false)
    (hn : nextEvent s = .read (s.base + off) 4) (h4 : off % 4 = 0) (h : off < 256) (hreg : Reg.ofOffset s.nb off = r)
    (hne : r ≠ .status) (hv : regRead r s = v) :
    step s = .next { s with agenda := s.agenda.tail, reads := v :: s.reads } := by
  have hcode : showsReservedCode r s = false := by simp [showsReservedCode, hne]
  rw [← hv]
  exact step_read_of_idle hrst hb hn h4 h hreg hcode

/-- The offsets the map does not list (spec/10_state.md R54). -/
theorem ofOffset_reserved {nb off : Nat} (h : off = 0x01C ∨ off = 0x038 ∨ off = 0x03C ∨ (0x060 ≤ off ∧ off < 0x080) ∨
    0x080 + nb ≤ off) : Reg.ofOffset nb off = .reserved := by
  unfold Reg.ofOffset
  repeat rw [if_neg (by omega)]

/-- Settles O17: the offset picks the register, and the register reads its value. -/
theorem controlAndDividerRegistersRead : Obligations.ControlAndDividerRegistersRead := by
  intro s off hnb hrst hb hn shows
  refine ⟨?id, ?cfg, ?ctrl, ?cmd, ?rem, ?digit, ?dvd, ?reserved⟩
  case id | ctrl | cmd | rem | digit => rintro rfl; exact step_read_value hrst hb hn rfl (by decide) rfl nofun rfl
  case cfg => rintro rfl; exact step_read_value hrst hb hn rfl (by decide) rfl nofun (cfgWord_eq s.nb)
  case dvd =>
    rintro k hk rfl
    exact step_read_value hrst hb hn (by omega) (by omega) (ofOffset_dvd s.nb k (by omega)) nofun rfl
  case reserved =>
    intro h
    exact step_read_value hrst hb hn (by omega) (by omega) (ofOffset_reserved (by omega)) nofun rfl

/-! ### The polymod and packer values, as numbers -/

/-- The low word of an accumulator (spec/10_state.md R48, R49). -/
theorem acc_low (c : Acc) : c.extractLsb' 0 32 = BitVec.ofNat 32 (c.toNat % 2 ^ 32) := by
  apply BitVec.eq_of_toNat_eq
  simp

/-- The bits of an accumulator from bit 32 up (spec/10_state.md R48, R49). -/
theorem acc_high (c : Acc) : (c.extractLsb' 32 8).setWidth 32 = BitVec.ofNat 32 (c.toNat / 2 ^ 32) := by
  apply BitVec.eq_of_toNat_eq
  have := c.isLt
  simp only [BitVec.toNat_setWidth, BitVec.extractLsb'_toNat, BitVec.toNat_ofNat, Nat.shiftRight_eq_div_pow]
  omega

/-- CKSYMi as a number (spec/10_state.md R52). -/
theorem checksumSymbol_eq (s : State) (i : Nat) :
    (s.checksumSymbol i).setWidth 32 = BitVec.ofNat 32 (s.polymodResult.toNat / 2 ^ (35 - 5 * i) % 32) := by
  apply BitVec.eq_of_toNat_eq
  simp only [State.checksumSymbol, BitVec.toNat_setWidth, BitVec.extractLsb'_toNat, BitVec.toNat_ofNat,
    Nat.shiftRight_eq_div_pow]

/-- PDIR at its place in PKR_STAT, as a number (spec/10_state.md R50). -/
theorem pdirWord_shift (s : State) : (s.pdirWord <<< 8).toNat = (if s.pdir = .pack then 0 else 1) <<< 8 := by
  unfold State.pdirWord
  cases s.pdir <;> rfl

/-- PKR_STAT as a number: its three fields do not overlap (spec/10_state.md R50). -/
theorem packerWord_eq (s : State) :
    s.packerWord = BitVec.ofNat 32 (s.pacc.toNat * 2 ^ 16 + (if s.pdir = .pack then 0 else 2 ^ 8) + s.pcnt.toNat) := by
  have hacc := s.pacc.isLt
  have hcnt := s.pcnt.isLt
  have hpdir : (if s.pdir = .pack then 0 else 2 ^ 8) = (if s.pdir = .pack then 0 else 1) <<< 8 := by split <;> rfl
  have hbit : (if s.pdir = .pack then 0 else 1) ≤ 1 := by split <;> decide
  rw [hpdir]
  generalize hp : (if s.pdir = .pack then 0 else 1) = p at hbit
  have hshift : (s.pacc.setWidth 32 <<< 16).toNat = s.pacc.toNat <<< 16 := by
    simp only [BitVec.toNat_shiftLeft, BitVec.toNat_setWidth, Nat.shiftLeft_eq]; omega
  have hlow : (p <<< 8 ||| s.pcnt.toNat) = p <<< 8 + s.pcnt.toNat :=
    (Nat.shiftLeft_add_eq_or_of_lt (by omega) p).symm
  have hsum : p <<< 8 + s.pcnt.toNat < 2 ^ 16 := by rw [Nat.shiftLeft_eq]; omega
  apply BitVec.eq_of_toNat_eq
  calc s.packerWord.toNat = s.pacc.toNat <<< 16 ||| (p <<< 8 ||| s.pcnt.toNat) := by
        simp only [State.packerWord, BitVec.toNat_or, hshift, pdirWord_shift, hp, Nat.or_assoc, BitVec.toNat_setWidth]
        rw [Nat.mod_eq_of_lt (a := s.pcnt.toNat) (by omega)]
    _ = s.pacc.toNat <<< 16 + (p <<< 8 + s.pcnt.toNat) := by rw [hlow, Nat.shiftLeft_add_eq_or_of_lt hsum]
    _ = _ := by rw [BitVec.toNat_ofNat]; simp only [Nat.shiftLeft_eq] at *; omega

/-- Settles O18: the offset picks the register, and its value is the number the rule writes. -/
theorem polymodAndPackerRegistersRead : Obligations.PolymodAndPackerRegistersRead := by
  intro s off hrst hb hn shows result
  refine ⟨?clo, ?chi, ?rlo, ?rhi, ?stat, ?out, ?cksym⟩
  case clo => rintro rfl; exact step_read_value hrst hb hn rfl (by decide) rfl nofun (acc_low s.c)
  case chi => rintro rfl; exact step_read_value hrst hb hn rfl (by decide) rfl nofun (acc_high s.c)
  case rlo => rintro rfl; exact step_read_value hrst hb hn rfl (by decide) rfl nofun (acc_low s.polymodResult)
  case rhi => rintro rfl; exact step_read_value hrst hb hn rfl (by decide) rfl nofun (acc_high s.polymodResult)
  case stat => rintro rfl; exact step_read_value hrst hb hn rfl (by decide) rfl nofun (packerWord_eq s)
  case out => rintro rfl; exact step_read_value hrst hb hn rfl (by decide) rfl nofun (BitVec.ofNat_toNat ..).symm
  case cksym =>
    rintro i hi rfl
    exact step_read_value hrst hb hn (by omega) (by omega) (ofOffset_cksym s.nb i hi) nofun (checksumSymbol_eq s i)

/-! ### STATUS -/

theorem getLsbD_flagBit (b : Bool) (i : Nat) {k : Nat} (hk : k < 32) :
    (State.flagBit b i).getLsbD k = (b && decide (k = i)) := by
  cases b
  · simp [State.flagBit]
  · by_cases h : k = i
    · subst h; simp [State.flagBit, hk]
    · simp [State.flagBit, h]; omega

/-- Every bit of STATUS (spec/10_state.md R40). -/
theorem statusWord_getLsbD (s : State) {k : Nat} (hk : k < 32) : s.statusWord.getLsbD k =
    (s.busy && decide (k = 0) || s.err && decide (k = 1) || s.dz && decide (k = 2) || s.pz && decide (k = 3) ||
      s.pav && decide (k = 4) || s.ppz && decide (k = 5) || (!decide (k < 8) && s.errcode.getLsbD (k - 8))) := by
  simp only [State.statusWord, BitVec.getLsbD_or, getLsbD_flagBit _ _ hk, BitVec.getLsbD_shiftLeft, BitVec.getLsbD_setWidth, hk]
  have h8 : k - 8 < 32 := by omega
  simp [h8]

theorem dz_iff (s : State) : s.dz = true ↔ s.dvd = 0 := decide_eq_true_iff

theorem pz_iff (s : State) : s.pz = true ↔ s.c = 1#40 := by
  rw [← BitVec.xor_eq_zero_iff]; exact decide_eq_true_iff

theorem pav_iff (s : State) :
    s.pav = true ↔ (s.pdir = .pack ∧ 5 ≤ s.pcnt.toNat) ∨ (s.pdir = .unpack ∧ 8 ≤ s.pcnt.toNat) := by
  unfold State.pav
  cases s.pdir <;> simp

theorem pav_iff_outWidth_le (s : State) : s.pav = true ↔ outWidth s.pdir ≤ s.pcnt.toNat := by
  unfold State.pav
  cases s.pdir <;> exact decide_eq_true_iff

theorem ppz_iff (s : State) : s.ppz = true ↔ s.pacc = 0#12 := decide_eq_true_iff

/-- The bits of STATUS that show a flag. -/
theorem statusWord_flags (s : State) :
    s.statusWord.getLsbD 0 = s.busy ∧ s.statusWord.getLsbD 1 = s.err ∧ s.statusWord.getLsbD 2 = s.dz ∧
      s.statusWord.getLsbD 3 = s.pz ∧ s.statusWord.getLsbD 4 = s.pav ∧ s.statusWord.getLsbD 5 = s.ppz := by
  refine ⟨?_, ?_, ?_, ?_, ?_, ?_⟩ <;> rw [statusWord_getLsbD s (by decide)] <;> simp

/-- Above the flags stands ERRCODE, from bit 8. -/
theorem statusWord_getLsbD_of_ge (s : State) {k : Nat} (h6 : 6 ≤ k) (hk : k < 32) :
    s.statusWord.getLsbD k = (!decide (k < 8) && s.errcode.getLsbD (k - 8)) := by
  have h : k ≠ 0 ∧ k ≠ 1 ∧ k ≠ 2 ∧ k ≠ 3 ∧ k ≠ 4 ∧ k ≠ 5 := by omega
  simp [statusWord_getLsbD s hk, h]

/-- ERRCODE in its field, and 0 in the two reserved fields. -/
theorem statusWord_fields (s : State) :
    s.statusWord.extractLsb' 6 2 = 0#2 ∧ s.statusWord.extractLsb' 8 4 = s.errcode ∧
      s.statusWord.extractLsb' 12 20 = 0#20 := by
  refine ⟨?_, ?_, ?_⟩ <;> apply BitVec.eq_of_getLsbD_eq <;> intro k hk <;>
    rw [BitVec.getLsbD_extractLsb', statusWord_getLsbD_of_ge s (by omega) (by omega)]
  · have hlow : 6 + k < 8 := by omega
    simp [hlow]
  · simp [hk]
  · have habove : s.errcode.getLsbD (12 + k - 8) = false := BitVec.getLsbD_of_ge _ _ (by omega)
    simp [habove]

/-- Settles O19: ERRCODE is one the block produces, so the read of STATUS returns `statusWord`, bit by bit as above. -/
theorem statusShowsTheFlags : Obligations.StatusShowsTheFlags := by
  intro s hrst hb hcode hn
  obtain ⟨hbusy, herr, hdz, hpz, hpav, hppz⟩ := statusWord_flags s
  obtain ⟨hlow, hfield, hhigh⟩ := statusWord_fields s
  refine ⟨s.statusWord, step_read_of_idle hrst hb hn rfl (by decide) rfl (showsReservedCode_of_le hcode .status),
    hbusy.trans hb, herr, ?_, ?_, ?_, ?_, hlow, hfield, hhigh⟩
  · rw [hdz, dz_iff]
  · rw [hpz, pz_iff]
  · rw [hpav, pav_iff]
  · rw [hppz, ppz_iff]

/-! ### PAV and PKR.GET -/

/-- PKR.GET succeeds, from ERR = 0, exactly when a whole output unit is held. -/
theorem pkrGet_succeeds_iff {s : State} (he : s.err = false) :
    (∃ t, exec .pkrGet s = .next t ∧ t.err = false) ↔ outWidth s.pdir ≤ s.pcnt.toNat := by
  change (∃ t, execPkrGet s = .next t ∧ t.err = false) ↔ _
  unfold execPkrGet
  split
  · rename_i hlt
    refine iff_of_false ?_ (not_le.2 hlt)
    rintro ⟨t, ht, herr⟩
    cases ht
    simp at herr
  · rename_i hle
    exact iff_of_true ⟨_, rfl, he⟩ (not_lt.1 hle)

/-- Settles O41: bit 4 of STATUS is PAV, and PKR.GET has the same condition. -/
theorem pavMeansGetSucceeds : Obligations.PavMeansGetSucceeds := by
  intro s
  obtain ⟨-, -, -, -, hpav, -⟩ := statusWord_flags s
  rw [hpav]
  exact ⟨pav_iff s, fun he => (pav_iff_outWidth_le s).trans (pkrGet_succeeds_iff he).symm⟩

/-! ### Reset -/

/-- Settles O54: the fields are the table's, and the two computed values are those of that one state. -/
theorem resetValuesAreTheTables : Obligations.ResetValuesAreTheTables := by
  refine ⟨rfl, rfl, rfl, rfl, rfl, rfl, rfl, rfl, rfl, rfl, rfl, rfl, rfl, ?status, ?result⟩
  case status => decide
  case result => decide

end Sys2Proof.Machine
end

section
/-!
PROOFS. Runs of specified accesses (spec/20_memory.md R62, R63, R72): what every event keeps of the bus side, that a specified
event never stops the machine, that a command in flight completes, and the invariant of commands in flight.
-/
namespace Sys2Proof.Machine

/-! ### What an event keeps of the bus side -/

/-- A write leaves the reset input, the agenda and BASE alone. -/
theorem Written.environment {r : Reg} {v : Word} {s t : State} (hw : Written r v s t) :
    t.rst = s.rst ∧ t.agenda = s.agenda ∧ t.base = s.base := by
  cases hw <;> simp

/-- No event changes what is left of the agenda, or BASE. -/
theorem Served.environment {s t : State} (h : Served s t) : t.agenda = s.agenda ∧ t.base = s.base := by
  cases h with
  | readValue | readDraw | ignored | asserted => exact ⟨rfl, rfl⟩
  | wrote _ _ _ _ _ hw =>
    obtain ⟨-, hagenda, hbase⟩ := hw.environment
    exact ⟨hagenda, hbase⟩
  | completed _ _ _ he =>
    obtain ⟨-, hagenda, -, -, hbase, -⟩ := he.environment
    exact ⟨hagenda, hbase⟩
  | released => simp

/-- Nothing but `rstAssert` asserts RST. -/
theorem serve_rst {e : Event} {s t : State} (h : serve e s = .next t) (he : e ≠ .rstAssert) (hr : s.rst = false) :
    t.rst = false := by
  cases e with
  | read addr size => obtain ⟨v, rfl⟩ | ⟨f, rfl⟩ := busRead_cases h <;> exact hr
  | write addr size v =>
    obtain rfl | ⟨-, off, -, -, -, rfl⟩ := busWrite_cases h
    · exact hr
    · exact (regWrite_cases _ v s).environment.1.trans hr
  | blockTurn =>
    obtain ⟨t', ht, ⟨-, -, heff⟩ | ⟨rfl, -⟩⟩ := takeTurn_effect s
    · cases h.symm.trans ht; exact heff.environment.1.trans hr
    · cases h.symm.trans ht; exact hr
  | rstAssert => exact absurd rfl he
  | rstRelease => cases h; exact State.releaseRst_rst s

/-! ### Progress: a specified event leaves a next state -/

theorem busRead_progress {addr size : Nat} {s : State} (hreach : reach s.base addr size ≠ .unspecified)
    (hcode : s.errcode.toNat ≤ 10) : ∃ t, busRead addr size s = .next t := by
  unfold busRead
  split
  · exact ⟨_, rfl⟩
  · exact absurd ‹_› hreach
  · rw [showsReservedCode_of_le hcode]
    split
    · exact ⟨_, rfl⟩
    · split <;> exact ⟨_, rfl⟩

theorem busWrite_progress {addr size : Nat} {v : Word} {s : State} (hreach : reach s.base addr size ≠ .unspecified) :
    ∃ t, busWrite addr size v s = .next t := by
  unfold busWrite
  split
  · exact ⟨_, rfl⟩
  · exact absurd ‹_› hreach
  · exact ⟨_, rfl⟩

theorem Inv.errcode_le {s : State} (h : Inv s) : s.errcode.toNat ≤ 10 := by
  obtain ⟨-, -, -, hcode, -, -, -⟩ := h
  exact hcode

theorem serve_progress {e : Event} {s : State} (he : e.specified s.base = true) (hcode : s.errcode.toNat ≤ 10) :
    ∃ t, serve e s = .next t := by
  cases e with
  | read addr size => exact busRead_progress (of_decide_eq_true he) hcode
  | write addr size v => exact busWrite_progress (of_decide_eq_true he)
  | blockTurn =>
    obtain ⟨t, ht, -⟩ := takeTurn_effect s
    exact ⟨t, ht⟩
  | rstAssert | rstRelease => exact ⟨_, rfl⟩

/-- The next event stands in the agenda, or is the block's turn. -/
theorem nextEvent_cases (s : State) : nextEvent s ∈ s.agenda ∨ nextEvent s = .blockTurn := by
  unfold nextEvent
  cases s.agenda with
  | nil => exact .inr rfl
  | cons e es => exact .inl List.mem_cons_self

theorem Specified.nextEvent_specified {s : State} (h : Specified s) : (nextEvent s).specified s.base = true := by
  obtain hmem | hturn := nextEvent_cases s
  · exact List.all_eq_true.1 h _ hmem
  · rw [hturn]; rfl

/-- Every step keeps a specified agenda: it takes one event off, and BASE stays. -/
theorem Specified.of_step {s t : State} (h : Specified s) (hs : step s = .next t) : Specified t := by
  obtain ⟨hagenda, hbase⟩ := (step_cases hs).environment
  rw [Specified, hagenda, hbase]
  exact List.all_eq_true.2 fun e he => List.all_eq_true.1 h e (List.mem_of_mem_tail he)

/-- One step from a legal state with a specified agenda: there is a next state, again legal and with a specified agenda. -/
theorem step_specified {s : State} (hinv : Inv s) (hspec : Specified s) : ∃ t, step s = .next t ∧ Inv t ∧ Specified t := by
  obtain ⟨t, ht⟩ := serve_progress (s := s.popEvent) hspec.nextEvent_specified hinv.errcode_le
  exact ⟨t, ht, everyStepKeepsTheInvariants s t hinv ht, hspec.of_step ht⟩

/-- A run whose first step leaves a next state goes on from there. -/
theorem run_succ {M : Host.Core} {s t : M.State} (h : M.step s = .next t) (k : Nat) : M.run (k + 1) s = M.run k t := by
  rw [Host.Core.run, h]

/-- Settles O60, by induction on the number of steps. -/
theorem specifiedAccessesNeverStopTheMachine : Obligations.SpecifiedAccessesNeverStopTheMachine := by
  intro k
  induction k with
  | zero => exact fun s hinv hspec => ⟨s, rfl, hinv, hspec⟩
  | succ k ih =>
    intro s hinv hspec
    obtain ⟨s', hstep, hinv', hspec'⟩ := step_specified hinv hspec
    obtain ⟨t, hrun, ht⟩ := ih s' hinv' hspec'
    exact ⟨t, (run_succ hstep k).trans hrun, ht⟩

/-! ### A command in flight completes -/

/-- The block's turn ends the command in flight. -/
theorem takeTurn_completes {s : State} (hr : s.rst = false) (hb : s.busy = true) :
    ∃ t, takeTurn s = .next t ∧ t.busy = false := by
  obtain ⟨t, ht, ⟨-, -, he⟩ | ⟨-, hidle⟩⟩ := takeTurn_effect s
  · exact ⟨t, ht, he.busy rfl⟩
  · simp [hr, hb] at hidle

/-- A step under an agenda that does not assert RST leaves RST released, and such an agenda. -/
theorem NoReset.of_step {s t : State} (h : NoReset s) (hs : step s = .next t) : NoReset t := by
  obtain ⟨hr, hmem⟩ := h
  have hagenda : t.agenda = s.agenda.tail := (step_cases hs).environment.1
  have hne : nextEvent s ≠ .rstAssert := by
    obtain hnext | hturn := nextEvent_cases s
    · exact fun he => hmem (he ▸ hnext)
    · rw [hturn]; nofun
  exact ⟨serve_rst hs hne hr, fun he => hmem (List.mem_of_mem_tail (hagenda ▸ he))⟩

/-- With the agenda used up, or at any step before, BUSY falls. -/
theorem busy_falls_within (es : List Event) :
    ∀ s : State, s.agenda = es → Inv s → Specified s → NoReset s → s.busy = true →
    ∃ k t, k ≤ es.length + 1 ∧ core.run k s = .next t ∧ t.busy = false := by
  induction es with
  | nil =>
    intro s ha _ _ hnr hb
    have hn : nextEvent s = .blockTurn := by simp [nextEvent, ha]
    obtain ⟨t, ht, hidle⟩ := takeTurn_completes (s := s.popEvent) hnr.1 hb
    exact ⟨1, t, Nat.le_refl 1, run_succ ((step_turn hn).trans ht) 0, hidle⟩
  | cons e es ih =>
    intro s ha hinv hspec hnr hb
    obtain ⟨s', hstep, hinv', hspec'⟩ := step_specified hinv hspec
    cases hb' : s'.busy with
    | false => exact ⟨1, s', Nat.le_add_left .., run_succ hstep 0, hb'⟩
    | true =>
      have ha' : s'.agenda = es := by
        rw [(step_cases hstep).environment.1, State.popEvent_agenda, ha, List.tail_cons]
      obtain ⟨k, t, hk, hrun, hidle⟩ := ih s' ha' hinv' hspec' (hnr.of_step hstep) hb'
      exact ⟨k + 1, t, Nat.succ_le_succ hk, (run_succ hstep k).trans hrun, hidle⟩

/-- Settles O12: at the latest the step after the whole agenda is the block's turn. -/
theorem commandInFlightCompletesWithinTheAgenda : Obligations.CommandInFlightCompletesWithinTheAgenda :=
  fun s => busy_falls_within s.agenda s rfl

/-! ### Commands in flight under ERR = 1 -/

/-- The gate of a command write, as a condition (spec/20_memory.md R69). -/
theorem acceptsWord_iff (s : State) (w : Word) :
    acceptsWord s w = true ↔ s.err = false ∨ w = 0x00000001#32 ∨ w = 0x00000002#32 := by
  simp [acceptsWord, or_assoc]

/-- The first error is kept, and one latched now is the overrun. -/
theorem InFlight.latch_overrun {s : State} (h : InFlight s) : InFlight (s.latch .overrun) := by
  cases he : s.err
  · rw [State.latch_of_not_err he]; exact fun _ _ => .inl rfl
  · rwa [State.latch_of_err he]

theorem Written.inFlight {r : Reg} {v : Word} {s t : State} (hw : Written r v s t) (h : InFlight s) : InFlight t := by
  cases hw with
  | ignored | ofs | dvd => exact h
  | overrun => exact h.latch_overrun
  | accepted _ _ ha =>
    intro _ (he : s.err = true)
    rw [acceptsWord_iff, he] at ha
    exact .inr (ha.resolve_left nofun)

/-- Every event keeps the invariant of commands in flight. -/
theorem Served.inFlight {s t : State} (hs : Served s t) (h : InFlight s) : InFlight t := by
  cases hs with
  | readValue | readDraw | ignored | asserted => exact h
  | wrote _ _ _ _ _ hw => exact hw.inFlight h
  | completed _ _ _ he => exact fun hb => by simp [he.busy rfl] at hb
  | released =>
    cases hr : s.rst
    · rwa [State.releaseRst_of_not_rst hr]
    · rw [State.releaseRst_of_rst hr]; exact nofun

/-- Settles O59: taking the event off the agenda leaves BUSY, PEND and the latch, and every event keeps the invariant. -/
theorem everyStepKeepsInFlight : Obligations.EveryStepKeepsInFlight :=
  fun s _ h hs => (step_cases hs).inFlight (s := s.popEvent) h

end Sys2Proof.Machine
end

section
/-!
PROOFS. One access or one turn of the block at a time (spec/20_memory.md R63 to R74): completion, the gate of command words, data
writes, ignored writes, accesses off the map, and reads.
-/
namespace Sys2Proof.Machine

/-! ### Completion -/

/-- Settles O8: the block's turn completes PEND, and PEND decodes. -/
theorem stepRunsTheDecodedCommand : Obligations.StepRunsTheDecodedCommand := by
  intro s i hr hb hn hi
  have hturn : takeTurn s.popEvent = complete s.popEvent := if_pos (by simp [hr, hb])
  have hpend : decode s.popEvent.pend = .ok i := hi
  rw [step_turn hn, hturn, complete, hpend]
  rfl

/-! ### Writes with RST released -/

/-- A write to a word of the window with RST released is the write of the register there. -/
theorem step_write_reg {s : State} {off : Nat} {v : Word} {r : Reg} (hrst : s.rst = false)
    (hn : nextEvent s = .write (s.base + off) 4 v) (h4 : off % 4 = 0) (h : off < 256) (hreg : Reg.ofOffset s.nb off = r) :
    step s = .next (regWrite r v s.popEvent) := by
  rw [step_write h4 h hn, hrst, hreg]; rfl

theorem regWrite_cmd_of_idle {s : State} (hb : s.busy = false) (w : Word) :
    regWrite .cmd w s = if acceptsWord s w then s.accept w else s := orOverrun_of_idle hb _

theorem regWrite_ctrl_of_idle {s : State} (hb : s.busy = false) (v : Word) :
    regWrite .ctrl v s = { s with ofs := v.setWidth 8 } := orOverrun_of_idle hb _

theorem regWrite_dvd_of_idle {s : State} (hb : s.busy = false) (k : Nat) (v : Word) :
    regWrite (.dvd k) v s = { s with dvd := writeSlice s.nb s.dvd k v } := orOverrun_of_idle hb _

/-- Settles O10: the write is the gate `acceptsWord`, and the gate is the condition of R69. -/
theorem errGatesCommandWords : Obligations.ErrGatesCommandWords := by
  intro s w hr hb hn
  have hstep := step_write_reg (r := .cmd) hr hn rfl (by decide) rfl
  rw [regWrite_cmd_of_idle (s := s.popEvent) hb] at hstep
  refine ⟨fun h => ?accepted, fun he h1 h2 => ?ignored⟩
  case accepted => rw [hstep, if_pos ((acceptsWord_iff s.popEvent w).2 h)]; rfl
  case ignored =>
    have hgate : ¬acceptsWord s.popEvent w = true := by simp [acceptsWord_iff, he, h1, h2]
    rw [hstep, if_neg hgate]; rfl

/-- Settles O13: the write replaces slice `k`, whose bits `writeSlice_testBit` gives and which lies within the `8*NB` bits. -/
theorem dataWritesChangeOneField : Obligations.DataWritesChangeOneField := by
  refine ⟨fun s k v hnb hr hb hk hn => ?dvd, fun s v hr hb hn => ?ctrl⟩
  case dvd =>
    have hpow : 256 ^ s.nb = 2 ^ (8 * s.nb) := (Nat.pow_mul 2 8 s.nb).symm
    have hlow : sliceLow s.nb k = 8 * s.nb - 32 - 32 * k := rfl
    refine ⟨writeSlice s.nb s.dvd k v, ?_, fun hd => ?_, fun b => ?_⟩
    · rw [step_write_reg hr hn (by omega) (by omega) (ofOffset_dvd s.nb k (by omega)),
        regWrite_dvd_of_idle (s := s.popEvent) hb]
      rfl
    · rw [← hpow] at hd ⊢
      exact writeSlice_lt v hd (by omega)
    · rw [writeSlice_testBit, hlow]
      exact if_congr (by omega) rfl rfl
  case ctrl =>
    rw [step_write_reg (r := .ctrl) hr hn rfl (by decide) rfl, regWrite_ctrl_of_idle (s := s.popEvent) hb,
      BitVec.setWidth_eq_extractLsb' (by decide)]
    rfl

/-! ### Writes that are ignored -/

/-- Every register but CMD, CTRL and the DVD words ignores a write (spec/20_memory.md R66). -/
theorem regWrite_of_readOnly {r : Reg} (hcmd : r ≠ .cmd) (hctrl : r ≠ .ctrl) (hdvd : ∀ k, r ≠ .dvd k)
    (v : Word) (s : State) : regWrite r v s = s := by
  cases r with
  | cmd => exact absurd rfl hcmd
  | ctrl => exact absurd rfl hctrl
  | dvd k => exact absurd rfl (hdvd k)
  | id | cfg | status | rem | digit | pmdClo | pmdChi | pmdRlo | pmdRhi | pkrStat | pkrOut | cksym _ | reserved => rfl

/-- Settles O14: the offset is none of those where a writable register stands, and under RST every write is ignored. -/
theorem readOnlyWritesAreIgnored : Obligations.ReadOnlyWritesAreIgnored := by
  intro s off v h4 h hctrl hcmd hdvd hn
  have hreg : regWrite (Reg.ofOffset s.nb off) v s.popEvent = s.popEvent :=
    regWrite_of_readOnly (fun hr => hcmd (ofOffset_eq_cmd hr)) (fun hr => hctrl (ofOffset_eq_ctrl hr))
      (fun k hr => hdvd (ofOffset_eq_dvd hr).2) v s.popEvent
  rw [step_write h4 h hn, hreg, ite_self]
  rfl

/-! ### Accesses off the map -/

theorem reach_outside {base addr size : Nat} (h : addr + size ≤ base ∨ base + 256 ≤ addr) :
    reach base addr size = .outside := if_pos h

/-- An access that touches the window and is not an aligned 32-bit one. -/
theorem reach_unspecified {base addr size : Nat} (hlow : base < addr + size) (hhigh : addr < base + 256)
    (hal : ¬(size = 4 ∧ base ≤ addr ∧ (addr - base) % 4 = 0)) : reach base addr size = .unspecified := by
  rw [reach, if_neg (by simp only [Config.windowBytes]; omega), if_neg hal]

/-- Settles O15: where the access reaches decides, for reads and for writes. -/
theorem accessesOffTheMapStopOrPassBy : Obligations.AccessesOffTheMapStopOrPassBy := by
  refine ⟨fun s addr size hlow hhigh hal => ?unspecified, fun s addr size hout => ?outside⟩
  case unspecified =>
    have hreach : reach s.popEvent.base addr size = .unspecified := reach_unspecified hlow hhigh hal
    refine ⟨fun hn => ?_, fun v hn => ?_⟩
    · rw [step_of_nextEvent hn, serve, busRead, hreach]
    · rw [step_of_nextEvent hn, serve, busWrite, hreach]
  case outside =>
    have hreach : reach s.popEvent.base addr size = .outside := reach_outside hout
    refine ⟨fun hn => ⟨Config.freeDraw s.draws, ?_⟩, fun v hn => ?_⟩
    · rw [step_of_nextEvent hn, serve, busRead, hreach]; rfl
    · rw [step_of_nextEvent hn, serve, busWrite, hreach]; rfl

/-! ### Reads -/

/-- No register shows the agenda or what was read before. -/
theorem regRead_of_bookkeeping (r : Reg) (s : State) (agenda : List Event) (reads : List Word) :
    regRead r { s with agenda := agenda, reads := reads } = regRead r s := by
  cases r <;> rfl

/-- Settles O16: a read returns a value or a draw, and the second of two reads sees the registers the first one saw. -/
theorem readsHaveNoSideEffects : Obligations.ReadsHaveNoSideEffects := by
  refine ⟨fun s t addr size hn hs => ?frame, fun s off hinv hr hb h4 h => ?twice⟩
  case frame =>
    have hread : busRead addr size s.popEvent = .next t := (step_of_nextEvent hn).symm.trans hs
    obtain ⟨v, rfl⟩ | ⟨f, rfl⟩ := busRead_cases hread <;> rfl
  case twice =>
    have hread (agenda : List Event) (reads : List Word) :
        step { s with agenda := .read (s.base + off) 4 :: agenda, reads := reads } =
          .next { s with agenda := agenda, reads := regRead (Reg.ofOffset s.nb off) s :: reads } := by
      have hstep := step_read_of_idle (s := { s with agenda := .read (s.base + off) 4 :: agenda, reads := reads }) hr hb rfl h4 h
        rfl (showsReservedCode_of_le hinv.errcode_le _)
      rwa [regRead_of_bookkeeping] at hstep
    exact ⟨_, (run_succ (hread _ _) 1).trans (run_succ (hread _ _) 0)⟩

end Sys2Proof.Machine
end

section
/-!
PROOFS. The dividend's bytes in the DVD words (spec/20_memory.md R76, spec/10_state.md R53).
-/
namespace Sys2Proof.Machine

/-- A byte of the low 32 bits of a number is that byte of the number. -/
theorem byte_of_low_word (x : Nat) {a : Nat} (ha : a + 8 ≤ 32) : x % 2 ^ 32 / 2 ^ a % 256 = x / 2 ^ a % 256 := by
  have hpow : 2 ^ 32 = 2 ^ a * 2 ^ (32 - a) := by rw [← Nat.pow_add]; congr 1; omega
  rw [hpow, Nat.mod_mul_right_div_self]
  exact Nat.mod_mod_of_dvd _ (Nat.pow_dvd_pow 2 (m := 8) (by omega))

/-- Settles O29: byte `j` lies `24 - 8*(j mod 4)` bits above the lowest bit of slice `j / 4`, which is `8*(NB - 1 - j)` bits above
bit 0 of DVD. -/
theorem dividendBytesStandInBigEndianWords : Obligations.DividendBytesStandInBigEndianWords := by
  intro s j hnb hj
  have hpos : sliceLow s.nb (j / 4) + (24 - 8 * (j % 4)) = 8 * (s.nb - 1 - j) := by unfold sliceLow; omega
  calc ((regRead (.dvd (j / 4)) s).extractLsb' (24 - 8 * (j % 4)) 8).toNat
      = s.dvd / 2 ^ sliceLow s.nb (j / 4) % 2 ^ 32 / 2 ^ (24 - 8 * (j % 4)) % 256 := by
        rw [BitVec.extractLsb'_toNat, Nat.shiftRight_eq_div_pow, regRead, readSlice, BitVec.toNat_ofNat]
    _ = s.dvd / 2 ^ (8 * (s.nb - 1 - j)) % 256 := by
        rw [byte_of_low_word _ (by omega), Nat.div_div_eq_div_mul, ← Nat.pow_add, hpos]
    _ = dividendByte s.nb s.dvd j := by rw [Nat.pow_mul]; rfl

end Sys2Proof.Machine
end

section
/-!
PROOFS. The decoder against the encoder and against the opcode table (spec/30_encoding.md R85 to R91).
-/
namespace Sys2Proof.Machine
open Sys2Proof.Laws

/-! ### The opcode byte and the coded fields -/

theorem opcode_ofByte_eq_some_iff {b : Byte} {o : Opcode} : Opcode.ofByte b = some o ↔ o.code = b :=
  ⟨opcode_code_of_ofByte, by rintro rfl; cases o <;> rfl⟩

theorem opcode_mem_all (o : Opcode) : o ∈ Opcode.all := by cases o <;> decide

theorem digitMap_ofField_eq_some_iff {f : BitVec 2} {m : DigitMap} : DigitMap.ofField f = some m ↔ m.code = f := by
  revert f; cases m <;> decide

/-- MAP = 3 is the one field value of no mapping (spec/30_encoding.md R90). -/
theorem exists_digitMap_code_iff {f : BitVec 2} : (∃ m : DigitMap, m.code = f) ↔ f ≠ 3#2 := by
  simp only [← digitMap_ofField_eq_some_iff, ← Option.isSome_iff_exists]
  revert f; decide

theorem dir_ofField_code (d : Dir) : Dir.ofField d.code = d := by cases d <;> rfl

theorem dir_code_ofField (f : BitVec 1) : (Dir.ofField f).code = f := by revert f; decide

/-! ### What decodes -/

theorem decodeFields_divStep_ok_iff {w : Word} {i : Instr} :
    decodeFields .divStep w = .ok i ↔ ∃ m : DigitMap, m.code = mapField w ∧ i = .divStep (dvsField w) m := by
  simp only [← digitMap_ofField_eq_some_iff, decodeFields]
  cases DigitMap.ofField (mapField w) <;> simp [eq_comm]

/-- Condition (c) of spec/30_encoding.md R88: of the operands only MAP has an illegal value. -/
theorem decodeFields_isOk_iff {o : Opcode} {w : Word} :
    (∃ i, decodeFields o w = .ok i) ↔ (o = .divStep → mapField w ≠ 3#2) := by
  cases o with
  | divStep =>
    refine ⟨fun ⟨i, hi⟩ _ => ?_, fun h => ?_⟩
    · obtain ⟨m, hm, -⟩ := decodeFields_divStep_ok_iff.1 hi
      exact exists_digitMap_code_iff.1 ⟨m, hm⟩
    · obtain ⟨m, hm⟩ := exists_digitMap_code_iff.2 (h rfl)
      exact ⟨_, decodeFields_divStep_ok_iff.2 ⟨m, hm, rfl⟩⟩
  | _ => exact ⟨nofun, fun _ => ⟨_, rfl⟩⟩

/-- A word with an assigned opcode and zeros in the reserved bits decodes by its fields. -/
theorem decode_eq_decodeFields {w : Word} {o : Opcode} (hop : opcField w = o.code)
    (hmask : w &&& o.format.reservedMask = 0#32) : decode w = decodeFields o w := by
  rw [decode, opcode_ofByte_eq_some_iff.2 hop.symm]
  exact if_pos hmask

/-- What decoding to the command `i` means, by the three conditions of spec/30_encoding.md R88. -/
theorem decode_eq_ok_iff {w : Word} {i : Instr} :
    decode w = .ok i ↔
      opcField w = i.opcode.code ∧ w &&& i.opcode.format.reservedMask = 0#32 ∧ decodeFields i.opcode w = .ok i := by
  refine ⟨fun h => ?_, fun ⟨hop, hmask, hf⟩ => (decode_eq_decodeFields hop hmask).trans hf⟩
  obtain ⟨hop, hmask⟩ := decode_ok h
  exact ⟨hop, hmask, (decode_eq_decodeFields hop hmask).symm.trans h⟩

/-! ### Fields of an encoded command -/

/-- An operand of up to 24 bits placed at bit 8 is read back. -/
theorem extract_operand {n : Nat} (o : Byte) (x : BitVec n) (hn : 8 + n ≤ 32) :
    (o.setWidth 32 ||| x.setWidth 32 <<< 8).extractLsb' 8 n = x := by
  apply BitVec.eq_of_getLsbD_eq
  intro k hk
  have h32 : 8 + k < 32 := by omega
  simp [hk, h32]

theorem dvsField_encode (d : BitVec 9) (m : DigitMap) : dvsField (encode (.divStep d m)) = d := by
  apply BitVec.eq_of_getLsbD_eq
  intro k hk
  cases m <;> interval_cases k <;> simp [dvsField, encode, operandBits, Instr.opcode, Opcode.code, DigitMap.code]

theorem mapField_encode (d : BitVec 9) (m : DigitMap) : mapField (encode (.divStep d m)) = m.code := by
  apply BitVec.eq_of_getLsbD_eq
  intro k hk
  cases m <;> interval_cases k <;> simp [mapField, encode, operandBits, Instr.opcode, Opcode.code, DigitMap.code]

/-- The fields of an encoded command are its operands. -/
theorem decodeFields_encode (i : Instr) : decodeFields i.opcode (encode i) = .ok i := by
  cases i with
  | divShb b => exact congrArg (Except.ok ∘ Instr.divShb) (extract_operand _ b (by decide))
  | divStep d m =>
    exact decodeFields_divStep_ok_iff.2 ⟨m, (mapField_encode d m).symm, by rw [dvsField_encode]⟩
  | pmdSym x => exact congrArg (Except.ok ∘ Instr.pmdSym) (extract_operand _ x (by decide))
  | pmdChr a => exact congrArg (Except.ok ∘ Instr.pmdChr) (extract_operand _ a (by decide))
  | pkrInit d =>
    have hdir : dirField (encode (.pkrInit d)) = d.code := extract_operand _ d.code (by decide)
    rw [Instr.opcode, decodeFields, hdir, dir_ofField_code]
  | pkrPut8 b => exact congrArg (Except.ok ∘ Instr.pkrPut8) (extract_operand _ b (by decide))
  | pkrPut5 x => exact congrArg (Except.ok ∘ Instr.pkrPut5) (extract_operand _ x (by decide))
  | sysNop | sysClrerr | sysSrst | divClr | pmdInit | pkrGet | pkrFlush | pkrEnd => rfl

/-- Every command's word has the layout of its format. -/
theorem encode_layout (i : Instr) : Layout.Statement i := by
  cases i with
  | sysNop => exact Layout.sysNop
  | sysClrerr => exact Layout.sysClrerr
  | sysSrst => exact Layout.sysSrst
  | divClr => exact Layout.divClr
  | divShb b => exact Layout.divShb b
  | divStep d m => exact Layout.divStep d m
  | pmdInit => exact Layout.pmdInit
  | pmdSym x => exact Layout.pmdSym x
  | pmdChr a => exact Layout.pmdChr a
  | pkrInit d => exact Layout.pkrInit d
  | pkrPut8 b => exact Layout.pkrPut8 b
  | pkrPut5 x => exact Layout.pkrPut5 x
  | pkrGet => exact Layout.pkrGet
  | pkrFlush => exact Layout.pkrFlush
  | pkrEnd => exact Layout.pkrEnd

/-- Settles O1: the word has the command's opcode and no reserved bit, and its fields are the operands. -/
theorem decodeOfEncodeIsTheCommand : Obligations.DecodeOfEncodeIsTheCommand := by
  intro i
  obtain ⟨hop, hmask, -⟩ := encode_layout i
  exact decode_eq_ok_iff.2 ⟨hop, hmask, decodeFields_encode i⟩

theorem decode_of_encode_eq {i : Instr} {w : Word} (h : encode i = w) : decode w = .ok i :=
  h ▸ decodeOfEncodeIsTheCommand i

/-- Settles O3: each of the eight words is its command's word, and the three others fail one condition of R88 each. -/
theorem sampleWordsDecodeAsWritten : Obligations.SampleWordsDecodeAsWritten :=
  ⟨decode_of_encode_eq rfl, decode_of_encode_eq rfl, decode_of_encode_eq rfl, decode_of_encode_eq rfl,
    decode_of_encode_eq rfl, decode_of_encode_eq rfl, decode_of_encode_eq rfl, decode_of_encode_eq rfl,
    by decide, by decide, by decide⟩

/-! ### A word is its opcode and its fields -/

/-- A bit of a word is zero where the mask of zeros has it. -/
theorem getLsbD_of_masked {w mask : Word} (h : w &&& mask = 0#32) {k : Nat} (hk : mask.getLsbD k = true) :
    w.getLsbD k = false := by
  simpa [hk] using congrArg (BitVec.getLsbD · k) h

/-- A word with zeros in the reserved bits, all from bit `8 + n` up, is its opcode byte and its `n` bits from bit 8. -/
theorem opcode_or_operand_eq {n : Nat} {w : Word} (f : Format)
    (hmask : ∀ k, k < 32 → 8 + n ≤ k → f.reservedMask.getLsbD k = true) (h : w &&& f.reservedMask = 0#32) :
    (opcField w).setWidth 32 ||| (w.extractLsb' 8 n).setWidth 32 <<< 8 = w := by
  apply BitVec.eq_of_getLsbD_eq
  intro k hk
  by_cases h8 : k < 8
  · simp [opcField, h8, hk]
  · have hpos : 8 + (k - 8) = k := by omega
    by_cases hn : k - 8 < n
    · simp [opcField, h8, hk, hn, hpos]
    · simp [opcField, h8, hn, getLsbD_of_masked h (hmask k hk (by omega))]

/-- A word with zeros in format D's reserved bits is its opcode byte, DVS and MAP. -/
theorem opcode_or_divisor_or_map_eq {w : Word} (h : w &&& Format.d.reservedMask = 0#32) :
    (opcField w).setWidth 32 ||| ((dvsField w).setWidth 32 <<< 8 ||| (mapField w).setWidth 32 <<< 18) = w := by
  apply BitVec.eq_of_getLsbD_eq
  intro k hk
  have hzero : Format.d.reservedMask.getLsbD k = true → w.getLsbD k = false := getLsbD_of_masked h
  clear h
  simp only [opcField, dvsField, mapField]
  interval_cases k <;> simp_all [Format.reservedMask]

/-- Settles O2: the fields of the word, put back where the encoder puts the operands, are the word. -/
theorem encodeOfDecodeIsTheWord : Obligations.EncodeOfDecodeIsTheWord := by
  intro w i h
  obtain ⟨hop, hmask, hf⟩ := decode_eq_ok_iff.1 h
  rw [encode, ← hop]
  cases i with
  | divShb | pmdChr | pkrPut8 => cases hf; exact opcode_or_operand_eq (n := 8) .i8 (by decide) hmask
  | pmdSym | pkrPut5 => cases hf; exact opcode_or_operand_eq (n := 5) .i5 (by decide) hmask
  | pkrInit =>
    cases hf
    rw [operandBits, dir_code_ofField]
    exact opcode_or_operand_eq (n := 1) .m (by decide) hmask
  | divStep d m =>
    obtain ⟨m, hm, ⟨⟩⟩ := decodeFields_divStep_ok_iff.1 hf
    rw [operandBits, hm]
    exact opcode_or_divisor_or_map_eq hmask
  | sysNop | sysClrerr | sysSrst | divClr | pmdInit | pkrGet | pkrFlush | pkrEnd =>
    rw [hop]
    exact (word_of_decode_formatN h rfl).symm

/-! ### The table, and completion of a word that is no command -/

/-- The rows of the table of spec/30_encoding.md R88: opcode number, command, reserved bits. -/
def opcodeRows : List (Byte × Opcode × Word) := Opcode.all.map fun o => (o.code, o, o.format.reservedMask)

/-- Something holds of a row of the table when it holds of a command's row. -/
theorem exists_mem_opcodeRows {p : Byte × Opcode × Word → Prop} :
    (∃ r ∈ opcodeRows, p r) ↔ ∃ o : Opcode, p (o.code, o, o.format.reservedMask) := by
  simp [opcodeRows, opcode_mem_all]

/-- The three conditions of spec/30_encoding.md R88. -/
theorem decode_isOk_iff {w : Word} :
    (∃ i, decode w = .ok i) ↔
      ∃ r ∈ opcodeRows, opcField w = r.1 ∧ w &&& r.2.2 = 0#32 ∧ (r.2.1 = .divStep → mapField w ≠ 3#2) := by
  rw [exists_mem_opcodeRows]
  refine ⟨fun ⟨i, hi⟩ => ?_, fun ⟨o, hop, hmask, hmap⟩ => ?_⟩
  · obtain ⟨hop, hmask, hf⟩ := decode_eq_ok_iff.1 hi
    exact ⟨i.opcode, hop, hmask, decodeFields_isOk_iff.1 ⟨i, hf⟩⟩
  · rw [decode_eq_decodeFields hop hmask]
    exact decodeFields_isOk_iff.2 hmap

/-- A word that is no command completes as ILLEGAL_CMD, which an earlier error hides (spec/60_exceptions.md R158, R159). -/
theorem complete_of_error {s : State} {e : DecodeError} (h : decode s.pend = .error e) :
    complete s = .next (if s.err then { s with busy := false } else { s with busy := false, err := true, errcode := 1#4 }) := by
  rw [complete, h]
  rfl

/-- Settles O4: the written table is `opcodeRows`, and a row is a command. -/
theorem wordIsCommandExactlyByTheTable : Obligations.WordIsCommandExactlyByTheTable := by
  refine ⟨fun w => ?conditions, fun w i h => ?row, fun s h => ?illegal⟩
  case conditions => exact decode_isOk_iff
  case row =>
    obtain ⟨hop, -⟩ := decode_ok h
    exact exists_mem_opcodeRows.2 ⟨i.opcode, hop, rfl⟩
  case illegal =>
    cases hd : decode s.pend with
    | ok i => exact absurd hd (h i)
    | error e => exact complete_of_error hd

/-! ### The unassigned opcodes -/

/-- The four ranges of spec/30_encoding.md R89. -/
def UnassignedCode (n : Nat) : Prop :=
  (0x03 ≤ n ∧ n ≤ 0x0F) ∨ (0x13 ≤ n ∧ n ≤ 0x1F) ∨ (0x23 ≤ n ∧ n ≤ 0x2F) ∨ (0x36 ≤ n ∧ n ≤ 0xFF)

/-- The four ranges are what the fifteen opcodes leave. -/
theorem opcode_ofByte_eq_none_iff (b : Byte) : Opcode.ofByte b = none ↔ UnassignedCode b.toNat := by
  have hb : b.toNat < 256 := b.isLt
  simp only [Opcode.ofByte, List.find?_eq_none, beq_iff_eq, ← BitVec.toNat_inj, Opcode.all, List.forall_mem_cons,
    List.not_mem_nil, false_implies, implies_true, and_true, Opcode.code, BitVec.toNat_ofNat, UnassignedCode]
  omega

theorem decodeFields_ne_unassigned (o : Opcode) (w : Word) : decodeFields o w ≠ .error .unassignedOpcode := by
  cases o with
  | divStep => rw [decodeFields]; cases DigitMap.ofField (mapField w) <;> nofun
  | _ => nofun

/-- The opcode is looked at first: a word fails condition (a) of spec/30_encoding.md R88 whatever its other bits. -/
theorem decode_unassigned_iff {w : Word} : decode w = .error .unassignedOpcode ↔ UnassignedCode (opcField w).toNat := by
  rw [← opcode_ofByte_eq_none_iff, decode]
  cases Opcode.ofByte (opcField w) with
  | none => simp
  | some o => by_cases hmask : w &&& o.format.reservedMask = 0#32 <;> simp [hmask, decodeFields_ne_unassigned]

/-- Settles O5: the opcode alone decides, and the 256 opcodes are counted. -/
theorem unassignedOpcodesAreIllegal : Obligations.UnassignedOpcodesAreIllegal := by
  refine ⟨fun w => decode_unassigned_iff, by decide +kernel, fun s hs he => ?_⟩
  rw [complete_of_error (decode_unassigned_iff.2 hs), he]
  rfl

end Sys2Proof.Machine
end

section
/-!
PROOFS. A command issued on the bus (spec/30_encoding.md R92, spec/20_memory.md R69, R70, R72).
-/
namespace Sys2Proof.Machine

theorem run_one {M : Host.Core} (s : M.State) : M.run 1 s = M.step s := by
  simp only [Host.Core.run]
  cases M.step s <;> rfl

theorem run_two {M : Host.Core} {s t : M.State} (h : M.step s = .next t) : M.run 2 s = M.step t :=
  (run_succ h 1).trans (run_one t)

/-- A write of a word to CMD while BUSY = 0 accepts the word or ignores it (spec/20_memory.md R69, R70). -/
theorem step_issue {s : State} {w : Word} (hr : s.rst = false) (hb : s.busy = false)
    (hn : nextEvent s = .write (s.base + 0x010) 4 w) :
    step s = .next (if acceptsWord s w then s.popEvent.accept w else s.popEvent) := by
  rw [step_write_reg (r := .cmd) hr hn rfl (by decide) rfl, regWrite_cmd_of_idle (s := s.popEvent) hb]
  rfl

/-- A write of a word to CMD with BUSY = 0, and then the block's turn: an accepted word is completed, and after an ignored one the
block finds nothing in flight. -/
theorem run_issue_turn {s : State} {w : Word} (hr : s.rst = false) (hb : s.busy = false)
    (hn : nextEvent s = .write (s.base + 0x010) 4 w) (hturn : nextEvent s.popEvent = .blockTurn) :
    Sys2Proof.core.run 2 s = commandWord w s.popEvent.popEvent := by
  have hgate : acceptsWord s.popEvent.popEvent w = acceptsWord s w := rfl
  have haccept : nextEvent (s.popEvent.accept w) = .blockTurn := hturn
  refine (run_two (step_issue hr hb hn)).trans ?_
  rw [commandWord, hgate]
  split
  · exact (step_turn haccept).trans (if_pos (by simp [hr]))
  · exact (step_turn hturn).trans (if_neg (by simp [hb]))

/-- Settles O9: the two events are the whole agenda, and without them the state is the idle one before. -/
theorem issueThenWaitIsCommand : Obligations.IssueThenWaitIsCommand := by
  intro s i hr hb ha
  have hs : { s with agenda := [] } = s := by rw [← ha]
  refine (run_issue_turn (s := { s with agenda := [.write (s.base + 0x010) 4 (encode i), .blockTurn] }) hr hb rfl rfl).trans ?_
  exact congrArg (commandWord (encode i)) hs

end Sys2Proof.Machine
end

section
/-!
PROOFS. The assembler (spec/30_encoding.md R91, R93).
-/
namespace Sys2Proof.Asm
open Sys2Proof.Machine

/-- Settles O6: each operand in range is the number its field holds. -/
theorem assemblerRefusesRatherThanTruncates : Obligations.AssemblerRefusesRatherThanTruncates := by
  refine fun c => ⟨fun h => ?inRange, fun h => if_neg (by simp [h])⟩
  unfold assemble
  rw [if_pos h]
  cases c with
  | divStep d m => exact ⟨_, rfl, congrArg (AsmCmd.divStep · m) (Nat.mod_eq_of_lt (of_decide_eq_true h))⟩
  | divShb n | pmdSym n | pmdChr n | pkrPut8 n | pkrPut5 n =>
    exact ⟨_, rfl, congrArg _ (Nat.mod_eq_of_lt (of_decide_eq_true h))⟩
  | _ => exact ⟨_, rfl, rfl⟩

theorem toAsm_wellFormed (i : Instr) : i.toAsm.wellFormed = true := by
  obtain ⟨-, -, hwf⟩ := encode_layout i
  exact hwf

/-- An instruction's assembler form assembles to the instruction: its operands are in range by their types. -/
theorem assemble_toAsm (i : Instr) : assemble i.toAsm = some i := by
  unfold assemble
  rw [if_pos (toAsm_wellFormed i)]
  cases i <;> simp [Instr.toAsm]

theorem mapM_assemble_toAsm (is : List Instr) : (is.map Instr.toAsm).mapM assemble = some is := by
  induction is with
  | nil => rfl
  | cons i is ih => simp [assemble_toAsm, ih]

/-- A pseudo-instruction with its operands in range gives the commands whose assembler forms it stands for. -/
theorem assemblePseudo_eq_some {nb : Nat} {p : Pseudo Nat} {is : List Instr} (hwf : p.wellFormed nb = true)
    (hexp : expandWith id p = is.map Instr.toAsm) : assemblePseudo nb p = some is := by
  rw [assemblePseudo, if_pos hwf, hexp, mapM_assemble_toAsm]

theorem bytes_inRange (bytes : List Byte) : (bytes.map BitVec.toNat).all (· < 256) = true := by
  simp only [List.all_map, List.all_eq_true]
  exact fun b _ => decide_eq_true b.isLt

/-- `div.load` checks its bytes' number against NB (spec/30_encoding.md R93). -/
theorem divLoad_wellFormed_iff (nb : Nat) (bytes : List Byte) :
    (Pseudo.divLoad (bytes.map BitVec.toNat)).wellFormed nb = true ↔ bytes.length ≤ nb := by
  rw [Pseudo.wellFormed, bytes_inRange, Bool.and_true, decide_eq_true_iff, List.length_map]

/-- Settles O7: each expansion is the list of the assembler forms of the commands listed, and only `div.load` can be refused. -/
theorem pseudoInstructionsExpandAsListed : Obligations.PseudoInstructionsExpandAsListed := by
  intro nb
  refine ⟨assemblePseudo_eq_some rfl rfl, assemblePseudo_eq_some rfl rfl, fun codes => ?chars, fun bytes => ?load,
    assemblePseudo_eq_some rfl rfl, fun _ => rfl⟩
  case chars =>
    refine assemblePseudo_eq_some (bytes_inRange codes) ?_
    simp [expandWith, Instr.toAsm, Function.comp_def]
  case load =>
    split
    · refine assemblePseudo_eq_some ((divLoad_wellFormed_iff nb bytes).2 ‹_›) ?_
      simp [expandWith, Instr.toAsm, Function.comp_def]
    · exact if_neg (mt (divLoad_wellFormed_iff nb bytes).1 ‹_›)

end Sys2Proof.Asm
end

section
/-!
PROOFS. Words with a reserved bit set (spec/30_encoding.md R86, R88(b)), and the divider's words (spec/41_divider.md R95, R99,
R100).
-/
namespace Sys2Proof.Machine

/-- A word with an assigned opcode and a reserved bit of its format set is no command. -/
theorem decode_of_reservedBit {w : Word} {o : Opcode} (hop : opcField w = o.code)
    (hmask : w &&& o.format.reservedMask ≠ 0#32) : decode w = .error .reservedBitSet := by
  rw [decode, opcode_ofByte_eq_some_iff.2 hop.symm]
  exact if_neg hmask

/-- In a format whose reserved bits include the `n` bits from bit `lo` up, a word with one of those set is no command. -/
theorem decode_of_reservedField {w : Word} {o : Opcode} {lo n : Nat} (hop : opcField w = o.code)
    (hmask : ∀ k, k < n → o.format.reservedMask.getLsbD (lo + k) = true) (hne : w.extractLsb' lo n ≠ 0#n) :
    decode w = .error .reservedBitSet := by
  refine decode_of_reservedBit hop fun hzero => hne ?_
  apply BitVec.eq_of_getLsbD_eq
  intro k hk
  simp [hk, getLsbD_of_masked hzero (hmask k hk)]

/-- A command without operands has no word but its opcode. -/
theorem decode_formatN_of_ne {w : Word} {o : Opcode} (hn : o.format = .n) (hop : opcField w = o.code)
    (hne : w ≠ o.code.setWidth 32) : decode w = .error .reservedBitSet := by
  refine decode_of_reservedBit hop fun hzero => hne ?_
  have hmap : o = .divStep → mapField w ≠ 3#2 := by rintro rfl; cases hn
  obtain ⟨i, hi⟩ := decodeFields_isOk_iff.2 hmap
  obtain rfl := opcode_of_decodeFields hi
  exact word_of_decode_formatN ((decode_eq_decodeFields hop hzero).trans hi) hn

/-- DIV.STEP's word, its opcode and MAP before its divisor (spec/41_divider.md R95). -/
theorem encode_divStep (d : BitVec 9) (m : DigitMap) :
    encode (.divStep d m) = (0x12#32 ||| m.code.setWidth 32 <<< 18) ||| d.setWidth 32 <<< 8 := by
  rw [BitVec.or_assoc, BitVec.or_comm (m.code.setWidth 32 <<< 18)]
  rfl

/-- MAP = 3 with no reserved bit set (spec/30_encoding.md R88(c)). -/
theorem decode_divStep_of_map_three {w : Word} (hop : opcField w = Opcode.divStep.code)
    (hmask : w &&& Opcode.divStep.format.reservedMask = 0#32) (hmap : mapField w = 3#2) : decode w = .error .illegalMap := by
  rw [decode_eq_decodeFields hop hmask, decodeFields, hmap]
  rfl

end Sys2Proof.Machine
end

section
/-!
PROOFS. The byte-serial division (spec/41_divider.md R95, R96), DIV.STEP's divisors and digits (R95, R97, R98), and what each of the
divider's commands does (R95, R99, R100).
-/
namespace Sys2Proof.Machine

/-! ### The byte-serial division -/

/-- One turn of the loop takes the quotient and the remainder of `v` to those of `v` with a byte below it. -/
theorem divideByte_div_mod {d : Nat} (hd : 0 < d) (v b : Nat) :
    divideByte d (v / d, v % d) b = ((v * 256 + b) / d, (v * 256 + b) % d) := by
  have hsplit : v * 256 + b = v % d * 256 + b + d * (v / d * 256) := by
    conv_lhs => rw [← Nat.div_add_mod v d]
    ring
  rw [hsplit, Nat.add_mul_div_left _ _ hd, Nat.add_mul_mod_self_left, Nat.add_comm ((v % d * 256 + b) / d)]
  rfl

/-- The first `i + 1` bytes of a number are the first `i` bytes and byte `i` below them. -/
theorem leadingBytes_succ {nb i : Nat} (hi : i < nb) (A : Nat) :
    A / 256 ^ (nb - (i + 1)) = A / 256 ^ (nb - i) * 256 + dividendByte nb A i := by
  have hup : nb - i = nb - 1 - i + 1 := by omega
  have hdown : nb - (i + 1) = nb - 1 - i := by omega
  rw [hup, hdown, Nat.pow_succ, ← Nat.div_div_eq_div_mul, dividendByte, Nat.div_add_mod']

/-- After `i` bytes the loop holds the quotient and the remainder of the value of those bytes (spec/41_divider.md R96). -/
theorem divideBytes_eq {nb A d i : Nat} (hd : 0 < d) (hA : A < 256 ^ nb) (hi : i ≤ nb) :
    ((List.range i).map (dividendByte nb A)).foldl (divideByte d) (0, 0) =
      (A / 256 ^ (nb - i) / d, A / 256 ^ (nb - i) % d) := by
  induction i with
  | zero => simp [Nat.div_eq_of_lt hA]
  | succ i ih =>
    rw [List.range_succ, List.map_append, List.foldl_append, ih (Nat.le_of_succ_le hi), List.map_singleton, List.foldl_cons,
      List.foldl_nil, divideByte_div_mod hd, ← leadingBytes_succ hi]

theorem longDivide_eq {nb A d : Nat} (hd : 0 < d) (hA : A < 256 ^ nb) : longDivide nb A d = (A / d, A % d) := by
  rw [longDivide, divideBytes_eq hd hA le_rfl, Nat.sub_self, Nat.pow_zero, Nat.div_one]

/-! ### Divisors -/

theorem divisorError_eq_none {d : BitVec 9} {m : DigitMap} (h1 : 1 ≤ d.toNat) (h256 : d.toNat ≤ 256)
    (h58 : m = .b58 → d.toNat ≤ 58) : divisorError d m = none := by
  rw [divisorError, if_neg (by omega), if_neg (by omega), if_neg fun ⟨hm, hd⟩ => hd.not_ge (h58 hm)]

theorem divisorError_of_zero {d : BitVec 9} (h : d.toNat = 0) (m : DigitMap) : divisorError d m = some .divByZero := if_pos h

theorem divisorError_of_large {d : BitVec 9} (h : 256 < d.toNat) (m : DigitMap) :
    divisorError d m = some .unsupportedBase := by
  rw [divisorError, if_neg (by omega), if_pos h]

theorem divisorError_of_b58 {d : BitVec 9} (h : 58 < d.toNat) : divisorError d .b58 = some .unsupportedBase := by
  rw [divisorError, if_neg (by omega), if_pos (c := DigitMap.b58 = .b58 ∧ d.toNat > 58) ⟨rfl, h⟩, ite_self]

/-- The two errors of spec/41_divider.md R95. -/
theorem divisorError_mem {d : BitVec 9} {m : DigitMap} {e : ErrCode} (h : divisorError d m = some e) :
    e ∈ [ErrCode.divByZero, .unsupportedBase] := by
  unfold divisorError at h
  split at h
  · cases h; decide
  · split at h
    · cases h; decide
    · split at h
      · cases h; decide
      · cases h

/-! ### Digits -/

/-- The code of a remainder's digit, with the Base58 alphabet as text (spec/41_divider.md R97, R98). -/
def digitCode (m : DigitMap) (ofs : Byte) (r : Nat) : Nat :=
  match m with
  | .raw => r
  | .ofs => (r + ofs.toNat) % 256
  | .b58 => ("123456789ABCDEFGHJKLMNPQRSTUVWXYZabcdefghijkmnopqrstuvwxyz".toList.getD r '?').toNat

/-- The table of codes is the characters' ASCII codes. -/
theorem base58Codes_getD {r : Nat} (hr : r < 58) (ofs : Byte) : base58Codes.getD r 0 = digitCode .b58 ofs r := by
  simp only [digitCode]
  revert r
  decide

theorem mapDigit_eq_ofNat {m : DigitMap} {r : Nat} (h58 : m = .b58 → r < 58) (ofs : Byte) :
    mapDigit m ofs r = BitVec.ofNat 8 (digitCode m ofs r) := by
  cases m with
  | raw | ofs => rfl
  | b58 => rw [← base58Codes_getD (h58 rfl)]; rfl

/-- A digit's code is a byte: OFS wraps, and the alphabet is ASCII. -/
theorem digitCode_lt {m : DigitMap} {r : Nat} (h256 : r < 256) (h58 : m = .b58 → r < 58) (ofs : Byte) :
    digitCode m ofs r < 256 := by
  cases m with
  | raw => exact h256
  | ofs => exact Nat.mod_lt _ (by decide)
  | b58 =>
    rw [← base58Codes_getD (h58 rfl), List.getD_eq_getElem _ _ (h58 rfl)]
    exact (by decide : ∀ c ∈ base58Codes, c < 256) _ (List.getElem_mem _)

/-! ### DIV.CLR, DIV.SHB and DIV.STEP -/

/-- The top byte of a dividend is 0 exactly when the dividend fits in the bytes below it. -/
theorem topByte_eq_zero_iff {nb d : Nat} : topByte nb d = 0 ↔ d < 256 ^ (nb - 1) :=
  Nat.div_eq_zero_iff_lt (Nat.pow_pos (by decide))

theorem exec_divShb_of_fits {s : State} (h : s.dvd < 256 ^ (s.nb - 1)) (b : Byte) :
    exec (.divShb b) s = .next { s with dvd := s.dvd * 256 + b.toNat } := if_neg (not_not.2 (topByte_eq_zero_iff.2 h))

theorem exec_divShb_of_overflow {s : State} (h : 256 ^ (s.nb - 1) ≤ s.dvd) (b : Byte) :
    exec (.divShb b) s = .next (s.latch .divOverflow) := if_pos (mt topByte_eq_zero_iff.1 h.not_gt)

theorem exec_divStep_of_error {d : BitVec 9} {m : DigitMap} {e : ErrCode} (h : divisorError d m = some e) (s : State) :
    exec (.divStep d m) s = .next (s.latch e) := by
  rw [exec, execDivStep, h]
  rfl

/-- DIV.STEP with a divisor that raises no error: its loop's pair is left in DVD and REM. -/
theorem exec_divStep_of_loop {d : BitVec 9} {m : DigitMap} (h : divisorError d m = none) (s : State) :
    exec (.divStep d m) s = .next { s with
      dvd := (longDivide s.nb s.dvd d.toNat).1, rem := BitVec.ofNat 8 (longDivide s.nb s.dvd d.toNat).2,
      digit := mapDigit m s.ofs (longDivide s.nb s.dvd d.toNat).2 } := by
  rw [exec, execDivStep, h]
  rfl

/-- The state a DIV.STEP by `d` leaves when it raises no error (spec/41_divider.md R95). -/
def State.divided (s : State) (d : Nat) (m : DigitMap) : State :=
  { s with dvd := s.dvd / d, rem := BitVec.ofNat 8 (s.dvd % d), digit := mapDigit m s.ofs (s.dvd % d) }

/-- The loop computes the quotient and the remainder. -/
theorem exec_divStep {s : State} {d : BitVec 9} {m : DigitMap} (hs : s.dvd < 256 ^ s.nb) (h1 : 1 ≤ d.toNat)
    (h256 : d.toNat ≤ 256) (h58 : m = .b58 → d.toNat ≤ 58) : exec (.divStep d m) s = .next (s.divided d.toNat m) := by
  rw [exec_divStep_of_loop (divisorError_eq_none h1 h256 h58), longDivide_eq h1 hs]
  rfl

/-- Settles O24: the command has one word and one effect. -/
theorem divClrClearsTheDivider : Obligations.DivClrClearsTheDivider :=
  ⟨decode_of_encode_eq rfl, fun _ hop hne => decode_formatN_of_ne (o := .divClr) rfl hop hne, fun _ => rfl,
    fun _ _ h => by cases h; rfl⟩

/-- Settles O25: the two ranges meet where the top byte stops being 0. -/
theorem divShbShiftsAByteIn : Obligations.DivShbShiftsAByteIn := by
  refine ⟨fun b => ?word, fun w hop hne => ?reserved, fun s b hs => ?fits, fun s b hs => ?overflow⟩
  case word => exact decode_of_encode_eq rfl
  case reserved => exact decode_of_reservedField (o := .divShb) hop (by decide) hne
  case fits =>
    refine ⟨_, exec_divShb_of_fits hs b, rfl, fun hnb => ?_, dz_iff _⟩
    rw [Nat.pow_mul]
    exact shiftByte_lt hnb (topByte_eq_zero_iff.2 hs) b.isLt
  case overflow => exact exec_divShb_of_overflow hs b

/-- Settles O26: the loop is `longDivide_eq`, the digit is `mapDigit_eq_ofNat`, and the errors are those of `divisorError`. -/
theorem divStepDividesInPlace : Obligations.DivStepDividesInPlace := by
  refine ⟨fun d => ?words, fun w hop hne => ?reserved, fun w hop hmask hmap => ?map, fun s d m hs h1 h256 h58 => ?divides,
    fun s d m => ?errors⟩
  case words =>
    exact ⟨decode_of_encode_eq (encode_divStep d .raw), decode_of_encode_eq (encode_divStep d .ofs),
      decode_of_encode_eq (encode_divStep d .b58)⟩
  case reserved => exact decode_of_reservedBit (o := .divStep) hop hne
  case map => exact decode_divStep_of_map_three hop hmask hmap
  case divides =>
    have hr : s.dvd % d.toNat < d.toNat := Nat.mod_lt _ h1
    have hr58 : m = .b58 → s.dvd % d.toNat < 58 := fun hm => hr.trans_le (h58 hm)
    have hstep := exec_divStep hs h1 h256 h58
    rw [State.divided, mapDigit_eq_ofNat hr58] at hstep
    exact ⟨hstep, longDivide_eq h1 hs, (Nat.div_le_self _ _).trans_lt hs, hr.trans_le h256,
      digitCode_lt (hr.trans_le h256) hr58 s.ofs, (dz_iff _).trans (Nat.div_eq_zero_iff_lt h1)⟩
  case errors =>
    refine ⟨fun h => ?_, fun h => ?_, fun h hm => ?_⟩
    · exact exec_divStep_of_error (divisorError_of_zero h m) s
    · exact exec_divStep_of_error (divisorError_of_large h m) s
    · subst hm
      exact exec_divStep_of_error (divisorError_of_b58 h) s

/-- Settles O27: REM holds the remainder uncut, since it is below a divisor of at most 256. -/
theorem byteSerialDivisionIsExact : Obligations.ByteSerialDivisionIsExact := by
  refine ⟨fun nb A d hd hA => ?loop, fun s d m hs h1 h256 h58 => ?step, fun s m => ?zero⟩
  case loop => exact ⟨longDivide_eq hd hA, fun i hi => divideBytes_eq hd hA hi⟩
  case step =>
    have hr : s.dvd % d.toNat < d.toNat := Nat.mod_lt _ h1
    have hrem : (s.divided d.toNat m).rem.toNat = s.dvd % d.toNat := Nat.mod_eq_of_lt (hr.trans_le h256)
    refine ⟨_, exec_divStep hs h1 h256 h58, ?_, hrem.trans_lt hr, rfl, Nat.div_le_self _ _⟩
    rw [hrem]
    exact (Nat.div_add_mod' _ _).symm
  case zero => exact exec_divStep_of_error (divisorError_of_zero rfl m) s

end Sys2Proof.Machine
end

section
/-!
PROOFS. Frame of the divider's commands (spec/41_divider.md R95, R99, R100, spec/60_exceptions.md R159).
-/
namespace Sys2Proof.Machine

/-- Taking an error keeps everything but the latch. -/
theorem latch_frame {e : ErrCode} {errors : List ErrCode} (he : e ∈ errors) (s : State) :
    BusKept s (s.latch e) ∧ DividerKept s (s.latch e) ∧ PackerKept s (s.latch e) ∧ (s.latch e).c = s.c ∧
      (s.latch e).ofs = s.ofs ∧ LatchOnly errors s (s.latch e) := by
  refine ⟨by simp [BusKept], by simp [DividerKept], by simp [PackerKept], by simp, by simp, ?_⟩
  cases herr : s.err
  · rw [State.latch_of_not_err herr]; exact .inr ⟨herr, rfl, e, he, rfl⟩
  · rw [State.latch_of_err herr]; exact .inl ⟨rfl, rfl⟩

/-- New values of DVD, REM and DIGIT keep everything else. -/
theorem divider_frame (s : State) (q : Nat) (r g : Byte) :
    BusKept s { s with dvd := q, rem := r, digit := g } ∧ PackerKept s { s with dvd := q, rem := r, digit := g } ∧
      LatchKept s { s with dvd := q, rem := r, digit := g } := by
  simp [BusKept, PackerKept, LatchKept]

/-- Everything DIV.SHB can do. -/
theorem exec_divShb_cases {b : Byte} {s t : State} (h : exec (.divShb b) s = .next t) :
    t = s.latch .divOverflow ∨ t = { s with dvd := s.dvd * 256 + b.toNat } := by
  obtain hs | hs := lt_or_ge s.dvd (256 ^ (s.nb - 1))
  · cases (exec_divShb_of_fits hs b).symm.trans h; exact .inr rfl
  · cases (exec_divShb_of_overflow hs b).symm.trans h; exact .inl rfl

/-- Everything DIV.STEP can do. -/
theorem exec_divStep_cases {d : BitVec 9} {m : DigitMap} {s t : State} (h : exec (.divStep d m) s = .next t) :
    (∃ e ∈ [ErrCode.divByZero, .unsupportedBase], t = s.latch e) ∨ ∃ q r g, t = { s with dvd := q, rem := r, digit := g } := by
  cases hd : divisorError d m with
  | none => cases (exec_divStep_of_loop hd s).symm.trans h; exact .inr ⟨_, _, _, rfl⟩
  | some e => cases (exec_divStep_of_error hd s).symm.trans h; exact .inl ⟨e, divisorError_mem hd, rfl⟩

/-- Settles O48: each command latches one of its errors or gives the divider new values. -/
theorem dividerCommandsFrame : Obligations.DividerCommandsFrame := by
  refine fun s t => ⟨fun h => ?clr, fun b h => ?shb, fun d m h => ?step⟩
  case clr =>
    cases h
    obtain ⟨hbus, hpacker, hlatch⟩ := divider_frame s 0 0#8 0#8
    exact ⟨hbus, hpacker, rfl, rfl, hlatch⟩
  case shb =>
    obtain rfl | rfl := exec_divShb_cases h
    · obtain ⟨hbus, ⟨-, hrem, hdigit⟩, hpacker, hc, hofs, hlatch⟩ := latch_frame (List.mem_singleton_self _) s
      exact ⟨hbus, hpacker, hc, hofs, hrem, hdigit, hlatch⟩
    · obtain ⟨hbus, hpacker, hlatch⟩ := divider_frame s (s.dvd * 256 + b.toNat) s.rem s.digit
      exact ⟨hbus, hpacker, rfl, rfl, rfl, rfl, .inl hlatch⟩
  case step =>
    obtain ⟨e, he, rfl⟩ | ⟨q, r, g, rfl⟩ := exec_divStep_cases h
    · obtain ⟨hbus, -, hpacker, hc, hofs, hlatch⟩ := latch_frame he s
      exact ⟨hbus, hpacker, hc, hofs, hlatch⟩
    · obtain ⟨hbus, hpacker, hlatch⟩ := divider_frame s q r g
      exact ⟨hbus, hpacker, rfl, rfl, .inl hlatch⟩

end Sys2Proof.Machine
end

section
/-!
PROOFS. Sequences of the divider's commands: a byte string loaded (spec/30_encoding.md R93 `div.load`, spec/41_divider.md R100) and
the conversion to a base (R102).
-/
namespace Sys2Proof.Machine

/-- From an idle block without an error a command is accepted and runs: PEND holds its word, and BUSY has fallen again
(spec/20_memory.md R69, R72). -/
theorem command_of_idle {s : State} (hb : s.busy = false) (he : s.err = false) (i : Instr) :
    command i s = exec i { s with pend := encode i } := by
  have hgate : acceptsWord s (encode i) = true := (acceptsWord_iff s _).2 (.inl he)
  have hbusy : (s.accept (encode i)).endCommand = { s with pend := encode i } := by
    rw [State.endCommand_accept, ← hb]
  rw [command, commandWord, if_pos hgate, complete, State.accept_pend, decodeOfEncodeIsTheCommand, ← hbusy]

theorem commands_cons {i : Instr} {s t : State} (h : command i s = .next t) (is : List Instr) :
    commands (i :: is) s = commands is t := by
  rw [commands, h, andThen]

theorem afterCommand_of_next {i : Instr} {s t : State} (h : command i s = .next t) : afterCommand i s = t := by
  rw [afterCommand, h]

/-! ### Loading -/

/-- A dividend of `k` bytes takes the bytes that still fit, the first byte the most significant. -/
theorem commands_divShb {bytes : List Byte} {s : State} {k : Nat} (hb : s.busy = false) (he : s.err = false)
    (hk : s.dvd < 256 ^ k) (hlen : k + bytes.length ≤ s.nb) :
    ∃ p, commands (bytes.map .divShb) s =
      .next { s with dvd := bytes.foldl (fun v b => v * 256 + b.toNat) s.dvd, pend := p } := by
  induction bytes generalizing s k with
  | nil => exact ⟨s.pend, rfl⟩
  | cons b bytes ih =>
    have hrest : k + 1 + bytes.length ≤ s.nb := by rw [List.length_cons] at hlen; omega
    have hfits : s.dvd < 256 ^ (s.nb - 1) := hk.trans_le (Nat.pow_le_pow_right (by decide) (by omega))
    have hnext : s.dvd * 256 + b.toNat < 256 ^ (k + 1) := shiftByte_lt k.succ_pos (topByte_eq_zero_iff.2 hk) b.isLt
    have hexec := exec_divShb_of_fits (s := { s with pend := encode (.divShb b) }) hfits b
    have hcommand := (command_of_idle hb he (.divShb b)).trans hexec
    rw [List.map_cons, commands_cons hcommand, List.foldl_cons]
    exact ih (s := { s with dvd := s.dvd * 256 + b.toNat, pend := encode (.divShb b) }) hb he hnext hrest

/-- Settles O28: the bytes go into the cleared dividend, which is a dividend of no bytes. -/
theorem loadingBytesBuildsTheirValue : Obligations.LoadingBytesBuildsTheirValue := by
  intro s bytes hb he hlen
  have hclr : command .divClr s = .next { s with dvd := 0, rem := 0#8, digit := 0#8, pend := encode .divClr } :=
    command_of_idle hb he .divClr
  obtain ⟨p, hp⟩ := commands_divShb (s := { s with dvd := 0, rem := 0#8, digit := 0#8, pend := encode .divClr }) (k := 0)
    hb he Nat.one_pos (by rwa [Nat.zero_add])
  exact ⟨_, (commands_cons hclr _).trans hp, rfl, rfl⟩

/-! ### Conversion to a base -/

/-- The loop emits the digits through the digit map and stops at DVD = 0, with at least as many turns as DVD has bits. -/
theorem convert_digits {s : State} {d : BitVec 9} {m : DigitMap} {n : Nat} (h2 : 2 ≤ d.toNat) (h256 : d.toNat ≤ 256)
    (h58 : m = .b58 → d.toNat ≤ 58) (hb : s.busy = false) (he : s.err = false) (hs : s.dvd < 256 ^ s.nb)
    (hn : s.dvd < 2 ^ n) :
    (convert d m n s).1 = (Nat.digits d.toNat s.dvd).map (mapDigit m s.ofs) ∧ (convert d m n s).2.dvd = 0 ∧
      (convert d m n s).2.err = false := by
  induction n generalizing s with
  | zero =>
    have hzero : s.dvd = 0 := Nat.lt_one_iff.1 hn
    simp [convert, hzero, he]
  | succ n ih =>
    obtain hzero | hpos := Nat.eq_zero_or_pos s.dvd
    · simp [convert, (dz_iff s).2 hzero, hzero, he]
    · have hdz : ¬s.dz = true := mt (dz_iff s).1 hpos.ne'
      have hstep := exec_divStep (s := { s with pend := encode (.divStep d m) }) hs (Nat.le_of_succ_le h2) h256 h58
      have hafter := afterCommand_of_next ((command_of_idle hb he _).trans hstep)
      have hhalf : 2 ^ (n + 1) ≤ d.toNat * 2 ^ n := Nat.pow_succ'.trans_le (Nat.mul_le_mul_right _ h2)
      have hq : s.dvd / d.toNat < 2 ^ n := Nat.div_lt_of_lt_mul (hn.trans_le hhalf)
      obtain ⟨hdigits, hdvd, herr⟩ := ih (s := State.divided { s with pend := encode (.divStep d m) } d.toNat m) hb he
        ((Nat.div_le_self _ _).trans_lt hs) hq
      rw [convert, if_neg hdz, hafter, Nat.digits_def' h2 hpos, List.map_cons]
      exact ⟨congrArg _ hdigits, hdvd, herr⟩

/-- Settles O30: a dividend of `8*NB` bits needs at most `8*NB` turns, and the digits are `Nat.digits`. -/
theorem repeatedDivisionEmitsTheDigits : Obligations.RepeatedDivisionEmitsTheDigits := by
  intro s d m hs hb he h2 h256 h58
  have hbits : s.dvd < 2 ^ (8 * s.nb) := by rwa [Nat.pow_mul]
  obtain ⟨hdigits, hdvd, herr⟩ := convert_digits h2 h256 h58 hb he hs hbits
  refine ⟨hdigits, hdvd, herr, fun hpos => ?_, fun hzero => ?_⟩
  · rw [hdigits, List.length_map, Nat.length_digits d.toNat s.dvd h2 hpos]
  · rw [hdigits, hzero, Nat.digits_zero, List.map_nil]

end Sys2Proof.Machine
end

section
/-!
PROOFS. The polymod step (spec/42_polymod.md R111, R112), its linearity (R116), and what each of the polymod's commands does and
keeps (R113, R114, R115).
-/
namespace Sys2Proof.Machine

/-! ### The step, and its linearity -/

/-- The generator that bit `35 + i` of the accumulator selects, or 0 (spec/42_polymod.md R112). -/
def selectedGenerator (c : Acc) (i : Nat) : Acc := if c.getLsbD (35 + i) then generator i else 0#40

theorem applyGenerator_eq_xor (c x : Acc) {i : Nat} (hi : i < 5) :
    applyGenerator (c.extractLsb' 35 5) x i = x ^^^ selectedGenerator c i := by
  have hbit : (c.extractLsb' 35 5).getLsbD i = c.getLsbD (35 + i) := by simp [hi]
  rw [applyGenerator, selectedGenerator, hbit]
  split
  · rfl
  · rw [BitVec.xor_zero]

/-- The step as one exclusive or: the accumulator shifted, the symbol, and the five selected generators. -/
theorem pstep_eq_xor (c : Acc) (d : Sym) :
    pstep c d = ((c <<< 5) ^^^ d.setWidth 40) ^^^ selectedGenerator c 0 ^^^ selectedGenerator c 1 ^^^ selectedGenerator c 2 ^^^
      selectedGenerator c 3 ^^^ selectedGenerator c 4 := by
  simp only [pstep, List.foldl_cons, List.foldl_nil, applyGenerator_eq_xor c, Nat.reduceLT]

theorem selectedGenerator_xor (A B : Acc) (i : Nat) :
    selectedGenerator (A ^^^ B) i = selectedGenerator A i ^^^ selectedGenerator B i := by
  simp only [selectedGenerator, BitVec.getLsbD_xor]
  cases A.getLsbD (35 + i) <;> cases B.getLsbD (35 + i) <;> simp

/-- Settles O32: every part of the step is linear, and the parts are exclusive-ored. -/
theorem polymodStepIsLinear : Obligations.PolymodStepIsLinear := by
  intro A B d e
  simp only [pstep_eq_xor, selectedGenerator_xor, BitVec.shiftLeft_xor_distrib, BitVec.setWidth_xor]
  ac_rfl

/-! ### PMD.INIT, PMD.SYM and PMD.CHR -/

/-- The symbol of a character is the low five bits of its code, as a number (spec/42_polymod.md R115). -/
theorem charSymbol_eq_ofNat (a : Byte) : charSymbol a = BitVec.ofNat 5 (a.toNat % 32) := by
  apply BitVec.eq_of_toNat_eq
  have hmask : a.toNat &&& 31 = a.toNat % 32 := Nat.and_two_pow_sub_one_eq_mod a.toNat 5
  change (a.toNat &&& 31) % 32 = a.toNat % 32 % 32
  rw [hmask]

/-- Settles O31: the step with its selected generators written out, and the words by their formats. -/
theorem polymodCommandsStepTheAccumulator : Obligations.PolymodCommandsStepTheAccumulator := by
  refine ⟨decode_of_encode_eq rfl, fun w hop hne => ?init, fun x => decode_of_encode_eq rfl, fun w hop hne => ?sym,
    fun a => decode_of_encode_eq rfl, fun w hop hne => ?chr, fun s => ⟨rfl, fun x => ?stepSym, fun a => ?stepChr⟩, pz_iff⟩
  case init => exact decode_formatN_of_ne (o := .pmdInit) rfl hop hne
  case sym => exact decode_of_reservedField (o := .pmdSym) hop (by decide) hne
  case chr => exact decode_of_reservedField (o := .pmdChr) hop (by decide) hne
  case stepSym =>
    change execPmdSym x s = _
    rw [execPmdSym, pstep_eq_xor]
    rfl
  case stepChr =>
    change execPmdChr a s = _
    rw [execPmdChr, pstep_eq_xor, charSymbol_eq_ofNat]
    rfl

/-- A new accumulator keeps everything else. -/
theorem polymod_frame (s : State) (c : Acc) :
    BusKept s { s with c := c } ∧ DividerKept s { s with c := c } ∧ PackerKept s { s with c := c } ∧
      LatchKept s { s with c := c } := by
  simp [BusKept, DividerKept, PackerKept, LatchKept]

/-- Settles O49: each of the three commands leaves the state with a new accumulator. -/
theorem polymodCommandsFrame : Obligations.PolymodCommandsFrame := by
  intro s t i hi h
  obtain ⟨c, rfl⟩ : ∃ c, t = { s with c := c } := by
    obtain rfl | ⟨x, rfl⟩ | ⟨a, rfl⟩ := hi <;> cases h <;> exact ⟨_, rfl⟩
  obtain ⟨hbus, hdivider, hpacker, hlatch⟩ := polymod_frame s c
  exact ⟨hbus, hdivider, hpacker, rfl, hlatch⟩

end Sys2Proof.Machine
end

section
/-!
PROOFS. Streams of symbols through the polymod (spec/42_polymod.md R112, R117 to R120): the flip pattern, the checksum symbols as a
number, and the commands of a stream.
-/
namespace Sys2Proof.Machine

/-! ### Linearity over a stream -/

/-- From the exclusive or of two accumulators, the exclusive or of two streams steps to that of the two results. -/
theorem foldl_pstep_xor (A B : Acc) (pairs : List (Sym × Sym)) :
    (pairs.map fun p => p.1 ^^^ p.2).foldl pstep (A ^^^ B) =
      (pairs.map Prod.fst).foldl pstep A ^^^ (pairs.map Prod.snd).foldl pstep B := by
  induction pairs generalizing A B with
  | nil => rfl
  | cons p pairs ih =>
    simp only [List.map_cons, List.foldl_cons]
    rw [polymodStepIsLinear, ih]

/-- Settles O34: the pattern alone is the stream from 0. -/
theorem flippedSymbolsChangeTheResultByThePattern : Obligations.FlippedSymbolsChangeTheResultByThePattern := by
  intro c flips
  rw [← foldl_pstep_xor, BitVec.xor_zero]

/-- A stream's effect is that of as many zero symbols and that of the stream from 0. -/
theorem foldl_pstep_eq_zeros_xor (c : Acc) (xs : List Sym) :
    xs.foldl pstep c = (List.replicate xs.length 0#5).foldl pstep c ^^^ xs.foldl pstep 0#40 := by
  have h := flippedSymbolsChangeTheResultByThePattern c (xs.map (Prod.mk 0#5))
  simpa [Function.comp_def] using h

/-! ### Symbols as the digits of a number -/

/-- The number whose base-32 digits are the symbols, most significant first, below a number already there. -/
def symbolsValue (n : Nat) (xs : List Sym) : Nat := xs.foldl (fun n x => n * 32 + x.toNat) n

/-- Digit strings of one length are equal when their numbers are. -/
theorem symbolsValue_inj {xs ys : List Sym} {m n : Nat} (hlen : xs.length = ys.length)
    (h : symbolsValue m xs = symbolsValue n ys) : m = n ∧ xs = ys := by
  induction xs generalizing m n ys with
  | nil =>
    obtain rfl := List.length_eq_zero_iff.1 hlen.symm
    exact ⟨h, rfl⟩
  | cons x xs ih =>
    obtain ⟨y, ys, rfl⟩ := List.exists_cons_of_length_eq_add_one hlen.symm
    obtain ⟨hhead, rfl⟩ := ih (Nat.succ.inj hlen) h
    have hnumbers : m * 32 + x.toNat = n * 32 + y.toNat := hhead
    have hxy : x.toNat = y.toNat := by omega
    exact ⟨by omega, by rw [BitVec.eq_of_toNat_eq hxy]⟩

/-- The first `i` checksum symbols spell the top `5*i` bits of the result (spec/10_state.md R52). -/
theorem symbolsValue_checksumSymbols (s : State) {i : Nat} (hi : i ≤ 8) :
    symbolsValue 0 ((List.range i).map s.checksumSymbol) = s.polymodResult.toNat / 2 ^ (40 - 5 * i) := by
  induction i with
  | zero => exact (Nat.div_eq_of_lt s.polymodResult.isLt).symm
  | succ i ih =>
    have hup : 40 - 5 * i = 35 - 5 * i + 5 := by omega
    have hdown : 40 - 5 * (i + 1) = 35 - 5 * i := by omega
    have ih := ih (Nat.le_of_succ_le hi)
    rw [symbolsValue] at ih ⊢
    rw [List.range_succ, List.map_append, List.foldl_append, ih, hup, hdown, Nat.pow_add, ← Nat.div_div_eq_div_mul,
      List.map_singleton, List.foldl_cons, List.foldl_nil, State.checksumSymbol, BitVec.extractLsb'_toNat,
      Nat.shiftRight_eq_div_pow]
    exact Nat.div_add_mod' _ 32

/-- The eight checksum symbols spell the result (spec/42_polymod.md R118). -/
theorem symbolsValue_checksum (s : State) : symbolsValue 0 s.checksum = s.polymodResult.toNat :=
  (symbolsValue_checksumSymbols s le_rfl).trans (Nat.div_one _)

/-- A symbol exclusive-ored below a number's bits is added there. -/
theorem mul_xor_eq_add (n : Nat) {x : Nat} (hx : x < 2 ^ 5) : n * 2 ^ 5 ^^^ x = n * 2 ^ 5 + x := by
  have hdiv : (n * 2 ^ 5 ^^^ x) / 2 ^ 5 = n := by
    rw [Nat.xor_div_two_pow, Nat.mul_div_cancel _ (by decide), Nat.div_eq_of_lt hx, Nat.xor_zero]
  have hmod : (n * 2 ^ 5 ^^^ x) % 2 ^ 5 = x := by
    rw [Nat.xor_mod_two_pow, Nat.mul_mod_left, Nat.mod_eq_of_lt hx, Nat.zero_xor]
  rw [← Nat.div_add_mod' (n * 2 ^ 5 ^^^ x) (2 ^ 5), hdiv, hmod]

/-- With the top five bits 0 no generator is selected: the step writes the symbol below the accumulator. -/
theorem pstep_toNat_of_lt {c : Acc} (hc : c.toNat < 2 ^ 35) (d : Sym) : (pstep c d).toNat = c.toNat * 32 + d.toNat := by
  have hnone (i : Nat) : selectedGenerator c i = 0#40 := by
    have htop : c.getLsbD (35 + i) = false :=
      Nat.testBit_lt_two_pow (hc.trans_le (Nat.pow_le_pow_right (by decide) (Nat.le_add_right 35 i)))
    simp [selectedGenerator, htop]
  have hshift : (c <<< 5).toNat = c.toNat <<< 5 := by
    rw [BitVec.toNat_shiftLeft, Nat.shiftLeft_eq]
    omega
  have hsymbol : (d.setWidth 40).toNat = d.toNat := by
    rw [BitVec.toNat_setWidth]
    omega
  simp only [pstep_eq_xor, hnone, BitVec.xor_zero, BitVec.toNat_xor, hshift, hsymbol]
  rw [Nat.shiftLeft_eq]
  exact mul_xor_eq_add _ d.isLt

/-- As long as the symbols fit in 40 bits, the steps write them one below the other. -/
theorem foldl_pstep_toNat {xs : List Sym} {c : Acc} {k : Nat} (hc : c.toNat < 32 ^ k) (hlen : k + xs.length ≤ 8) :
    (xs.foldl pstep c).toNat = symbolsValue c.toNat xs := by
  induction xs generalizing c k with
  | nil => rfl
  | cons x xs ih =>
    rw [List.length_cons] at hlen
    have hx := x.isLt
    have hstep := pstep_toNat_of_lt (hc.trans_le (Nat.pow_le_pow_right (by decide) (by omega : k ≤ 7))) x
    have hnext : (pstep c x).toNat < 32 ^ (k + 1) := by rw [hstep, Nat.pow_succ]; omega
    rw [List.foldl_cons, ih hnext (by omega), hstep]
    rfl

/-! ### Commands that feed the polymod -/

/-- The command consumes the symbol and does nothing else (spec/42_polymod.md R114, R115). -/
def Feeds (i : Instr) (x : Sym) : Prop := ∀ s : State, exec i s = .next { s with c := pstep s.c x }

theorem feeds_pmdSym (xs : List Sym) : List.Forall₂ Feeds (xs.map .pmdSym) xs :=
  List.forall₂_map_left_iff.2 (List.forall₂_same.2 fun _ _ _ => rfl)

theorem feeds_pmdChr (codes : List Byte) : List.Forall₂ Feeds (codes.map .pmdChr) (codes.map charSymbol) :=
  List.forall₂_map_left_iff.2 (List.forall₂_map_right_iff.2 (List.forall₂_same.2 fun _ _ _ => rfl))

/-- From an idle block without an error, commands that feed symbols step the accumulator through them. -/
theorem commands_of_feeds {is : List Instr} {xs : List Sym} (h : List.Forall₂ Feeds is xs) {s : State} (hb : s.busy = false)
    (he : s.err = false) : ∃ p, commands is s = .next { s with c := xs.foldl pstep s.c, pend := p } := by
  induction h generalizing s with
  | nil => exact ⟨s.pend, rfl⟩
  | @cons i x is xs hfeed _ ih =>
    have hcommand := (command_of_idle hb he i).trans (hfeed _)
    rw [commands_cons hcommand, List.foldl_cons]
    exact ih (s := { s with c := pstep s.c x, pend := encode i }) hb he

/-- After PMD.INIT and the symbols the result registers hold their polymod (spec/42_polymod.md R112). -/
theorem commands_pmdInit_of_feeds {is : List Instr} {xs : List Sym} (h : List.Forall₂ Feeds is xs) {s : State}
    (hb : s.busy = false) (he : s.err = false) :
    ∃ t, commands (.pmdInit :: is) s = .next t ∧ t = { s with c := t.c, pend := t.pend } ∧ t.polymodResult = polymod xs := by
  have hinit : command .pmdInit s = .next { s with c := 1#40, pend := encode .pmdInit } := command_of_idle hb he .pmdInit
  obtain ⟨p, hp⟩ := commands_of_feeds h (s := { s with c := 1#40, pend := encode .pmdInit }) hb he
  exact ⟨_, (commands_cons hinit is).trans hp, rfl, rfl⟩

/-- STATUS.PZ shows whether the result is 0 (spec/10_state.md R42). -/
theorem pz_iff_polymodResult (s : State) : s.pz = true ↔ s.polymodResult = 0#40 := decide_eq_true_iff

/-- Settles O33: the commands feed the symbols, and CKSYM0 to CKSYM7 are the result's base-32 digits. -/
theorem commandsComputeThePolymod : Obligations.CommandsComputeThePolymod := by
  intro s symbols hb he
  obtain ⟨t, ht, hframe, hresult⟩ := commands_pmdInit_of_feeds (feeds_pmdSym symbols) hb he
  refine ⟨t, ht, hframe, hresult, ?_, ?_⟩
  · rw [pz_iff_polymodResult, hresult]
  · rw [← hresult]
    exact symbolsValue_checksum t

/-! ### Generation and verification -/

/-- The symbols of the stream up to the checksum: the characters, the separator, the payload (spec/42_polymod.md R117). -/
def streamSymbols (pre : List Byte) (payload : List Sym) : List Sym := pre.map charSymbol ++ 0#5 :: payload

/-- A verification stream leaves the polymod of its symbols. -/
theorem commands_verification (pre : List Byte) (payload checksum : List Sym) {s : State} (hb : s.busy = false)
    (he : s.err = false) : ∃ t, commands (verificationCommands pre payload checksum) s = .next t ∧
      t.polymodResult = polymod (streamSymbols pre payload ++ checksum) := by
  have hfeeds : List.Forall₂ Feeds (pre.map .pmdChr ++ (0#5 :: payload).map .pmdSym ++ checksum.map .pmdSym)
      (streamSymbols pre payload ++ checksum) :=
    List.rel_append (List.rel_append (feeds_pmdChr pre) (feeds_pmdSym _)) (feeds_pmdSym checksum)
  obtain ⟨t, ht, -, hresult⟩ := commands_pmdInit_of_feeds hfeeds hb he
  exact ⟨t, ht, hresult⟩

/-- The generation stream is the verification stream of eight zero symbols. -/
theorem generationCommands_eq (pre : List Byte) (payload : List Sym) :
    generationCommands pre payload = verificationCommands pre payload (List.replicate 8 0#5) := rfl

/-- Eight symbols in the checksum's place change the result from that of eight zero symbols by the number they spell. -/
theorem polymod_append_eq_zero_iff {checksum : List Sym} (hlen : checksum.length = 8) (xs : List Sym) :
    polymod (xs ++ checksum) = 0#40 ↔
      symbolsValue 0 checksum = (polymod (xs ++ List.replicate 8 0#5)).toNat := by
  have hvalue : (checksum.foldl pstep 0#40).toNat = symbolsValue 0 checksum :=
    foldl_pstep_toNat (k := 0) Nat.one_pos (by omega)
  have hsplit : polymod (xs ++ checksum) = polymod (xs ++ List.replicate 8 0#5) ^^^ checksum.foldl pstep 0#40 := by
    simp only [polymod, List.foldl_append]
    rw [foldl_pstep_eq_zeros_xor _ checksum, hlen]
    ac_rfl
  rw [hsplit, BitVec.xor_eq_zero_iff, ← hvalue, BitVec.toNat_inj, eq_comm]

/-- Settles O35: the checksum that verifies spells the result of generation, as CKSYM0 to CKSYM7 do, and a number has one
spelling in eight symbols. -/
theorem onlyTheGeneratedChecksumVerifies : Obligations.OnlyTheGeneratedChecksumVerifies := by
  intro s u pre payload checksum hsb hse hub hue hlen
  obtain ⟨t, ht, htresult⟩ := commands_verification pre payload (List.replicate 8 0#5) hsb hse
  rw [← generationCommands_eq] at ht
  obtain ⟨v, hv, hvresult⟩ := commands_verification pre payload checksum hub hue
  refine ⟨t, v, ht, hv, ?_⟩
  rw [pz_iff_polymodResult, hvresult, polymod_append_eq_zero_iff hlen, ← htresult, ← symbolsValue_checksum t]
  exact ⟨fun h => (symbolsValue_inj hlen h).2, fun h => h ▸ rfl⟩

end Sys2Proof.Machine
end

section
/-!
PROOFS. Numbers as strings of bits, the most significant first (spec/43_packer.md R137): strings appended, cut and compared.
-/
namespace Sys2Proof.Machine

@[simp] theorem bitsOf_length (n v : Nat) : (bitsOf n v).length = n := by simp [bitsOf]

/-- The low `n` bits come after the rest. -/
theorem bitsOf_add (m n v : Nat) : bitsOf (m + n) v = bitsOf m (v / 2 ^ n) ++ bitsOf n v := by
  have hhigh : Nat.testBit v ∘ (n + ·) = Nat.testBit (v / 2 ^ n) := by
    funext i
    rw [Nat.testBit_div_two_pow, Nat.add_comm, Function.comp_apply]
  rw [bitsOf, Nat.add_comm m, List.range_add, List.reverse_append, List.map_append, ← List.map_reverse, List.map_map, hhigh]
  rfl

/-- Bits cut off above the low `n` do not matter. -/
theorem bitsOf_mod {n m : Nat} (h : n ≤ m) (v : Nat) : bitsOf n (v % 2 ^ m) = bitsOf n v := by
  refine List.map_congr_left fun i hi => ?_
  have hin : i < n := List.mem_range.1 (List.mem_reverse.1 hi)
  simp [Nat.testBit_mod_two_pow, hin.trans_le h]

/-- A number shifted up and a number below it (spec/43_packer.md R131, R132). -/
theorem bitsOf_append (m a : Nat) {n b : Nat} (hb : b < 2 ^ n) : bitsOf m a ++ bitsOf n b = bitsOf (m + n) (a * 2 ^ n + b) := by
  have hhigh : (a * 2 ^ n + b) / 2 ^ n = a := by
    rw [Nat.mul_comm, Nat.mul_add_div (Nat.two_pow_pos n), Nat.div_eq_of_lt hb, Nat.add_zero]
  have hlow : (a * 2 ^ n + b) % 2 ^ n = b := by rw [Nat.mul_add_mod', Nat.mod_eq_of_lt hb]
  rw [bitsOf_add, hhigh, ← bitsOf_mod le_rfl (a * 2 ^ n + b), hlow]

theorem bitsOf_zero (n : Nat) : bitsOf n 0 = List.replicate n false := by
  refine List.eq_replicate_iff.2 ⟨bitsOf_length n 0, fun b hb => ?_⟩
  obtain ⟨i, -, rfl⟩ := List.mem_map.1 hb
  exact Nat.zero_testBit i

/-- Two numbers of `n` bits are equal when their bits are. -/
theorem bitsOf_inj {n u v : Nat} (hu : u < 2 ^ n) (hv : v < 2 ^ n) (h : bitsOf n u = bitsOf n v) : u = v := by
  refine Nat.eq_of_testBit_eq fun i => ?_
  obtain hi | hi := lt_or_ge i n
  · exact List.map_inj_left.1 h i (List.mem_reverse.2 (List.mem_range.2 hi))
  · have hpow : 2 ^ n ≤ 2 ^ i := Nat.pow_le_pow_right (by decide) hi
    rw [Nat.testBit_lt_two_pow (hu.trans_le hpow), Nat.testBit_lt_two_pow (hv.trans_le hpow)]

/-- No bit of a number is set exactly when it is 0. -/
theorem true_notMem_bitsOf_iff {n v : Nat} (hv : v < 2 ^ n) : true ∉ bitsOf n v ↔ v = 0 := by
  constructor
  · intro h
    refine bitsOf_inj hv (Nat.two_pow_pos n) ?_
    rw [bitsOf_zero]
    refine List.eq_replicate_iff.2 ⟨bitsOf_length n v, fun b hb => ?_⟩
    exact Bool.eq_false_of_not_eq_true fun htrue => h (htrue ▸ hb)
  · rintro rfl
    simp [bitsOf_zero]

/-- The bits of `k` units of `n` bits. -/
theorem length_flatMap_bitsOf {α : Type} (n : Nat) (f : α → Nat) (xs : List α) :
    (xs.flatMap fun x => bitsOf n (f x)).length = n * xs.length := by
  simp [List.length_flatMap, Nat.mul_comm]

/-- A byte is its eight bits. -/
theorem byteBits_injective : Function.Injective fun b : Byte => bitsOf 8 b.toNat :=
  fun a b h => BitVec.eq_of_toNat_eq (bitsOf_inj a.isLt b.isLt h)

/-- Byte strings of one length are equal when their bits are. -/
theorem bytes_eq_of_bits_eq {xs ys : List Byte} (hlen : xs.length = ys.length)
    (h : (xs.flatMap fun b => bitsOf 8 b.toNat) = ys.flatMap fun b => bitsOf 8 b.toNat) : xs = ys := by
  refine List.map_injective_iff.2 byteBits_injective (List.eq_iff_flatten_eq.2 ⟨h, ?_⟩)
  simp [Function.comp_def, hlen]

end Sys2Proof.Machine
end

section
/-!
PROOFS. What each of the packer's commands does (spec/43_packer.md R130 to R136), and the packer as a queue of bits (R137).
-/
namespace Sys2Proof.Machine

/-! ### The packer's bounds by name -/

theorem PackerBounds.pcnt_le {s : State} (h : PackerBounds s) : s.pcnt.toNat ≤ 12 := h.1

theorem PackerBounds.pacc_lt {s : State} (h : PackerBounds s) : s.pacc.toNat < 2 ^ s.pcnt.toNat := h.2.1

theorem PackerBounds.pout_lt {s : State} (h : PackerBounds s) (hp : s.pdir = .pack) : s.pout.toNat < 32 := h.2.2 hp

/-! ### Putting and taking bits -/

/-- Where the shift register has room for `n` more bits, appending them loses none. -/
theorem shiftIn_lt {a p v n : Nat} (ha : a < 2 ^ p) (hv : v < 2 ^ n) (h : p + n ≤ 12) : a * 2 ^ n + v < 2 ^ 12 :=
  calc a * 2 ^ n + v < (a + 1) * 2 ^ n := by rw [Nat.succ_mul]; exact Nat.add_lt_add_left hv _
    _ ≤ 2 ^ p * 2 ^ n := Nat.mul_le_mul_right _ ha
    _ = 2 ^ (p + n) := (Nat.pow_add ..).symm
    _ ≤ 2 ^ 12 := Nat.pow_le_pow_right (by decide) h

/-- `PACC <- (PACC << n) | x; PCNT <- PCNT + n` with the values written out (spec/43_packer.md R131, R132). -/
theorem putBits_eq (s : State) {n : Nat} (x : BitVec n) (hn : n ≤ 12) : s.putBits n (x.setWidth 12) = { s with
    pacc := BitVec.ofNat 12 (s.pacc.toNat * 2 ^ n + x.toNat), pcnt := BitVec.ofNat 4 (s.pcnt.toNat + n) } := by
  have hacc : (s.pacc <<< n) ||| x.setWidth 12 = BitVec.ofNat 12 (s.pacc.toNat * 2 ^ n + x.toNat) := by
    have hx : x.toNat < 2 ^ 12 := x.isLt.trans_le (Nat.pow_le_pow_right (by decide) hn)
    apply BitVec.eq_of_toNat_eq
    rw [BitVec.toNat_or, BitVec.toNat_shiftLeft, BitVec.toNat_setWidth_of_le hn, BitVec.toNat_ofNat, ← Nat.shiftLeft_eq,
      Nat.shiftLeft_add_eq_or_of_lt x.isLt, Nat.or_mod_two_pow, Nat.mod_eq_of_lt hx]
  have hcnt : s.pcnt + BitVec.ofNat 4 n = BitVec.ofNat 4 (s.pcnt.toNat + n) := by
    rw [BitVec.ofNat_add, BitVec.ofNat_toNat, BitVec.setWidth_eq]
  rw [State.putBits, hacc, hcnt]

/-- `POUT <- PACC >> (PCNT - W)` and the rest with the values written out (spec/43_packer.md R134). -/
theorem takeBits_eq (s : State) (w : Nat) :
    s.takeBits w = { s with
      pout := BitVec.ofNat 8 (s.pacc.toNat / 2 ^ (s.pcnt.toNat - w))
      pcnt := BitVec.ofNat 4 (s.pcnt.toNat - w)
      pacc := BitVec.ofNat 12 (s.pacc.toNat % 2 ^ (s.pcnt.toNat - w)) } := by
  have hout : (s.pacc >>> (s.pcnt.toNat - w)).setWidth 8 = BitVec.ofNat 8 (s.pacc.toNat / 2 ^ (s.pcnt.toNat - w)) := by
    rw [← Nat.shiftRight_eq_div_pow, ← BitVec.toNat_ushiftRight, BitVec.ofNat_toNat]
  rw [State.takeBits, hout]

/-- The output width is 5 or 8 (spec/43_packer.md R133). -/
theorem outWidth_bounds (d : Dir) : 5 ≤ outWidth d ∧ outWidth d ≤ 8 := by cases d <;> decide

theorem outWidth_eq_ite (d : Dir) : outWidth d = if d = .pack then 5 else 8 := by cases d <;> rfl

/-- What PKR.FLUSH emits, with its value written out (spec/43_packer.md R135). -/
theorem flushSymbol_eq (a : Shift) (k : Nat) :
    ((a <<< k) &&& 0x1F#12).setWidth 8 = BitVec.ofNat 8 (a.toNat * 2 ^ k % 32) := by
  apply BitVec.eq_of_toNat_eq
  have hmask : (a <<< k).toNat &&& 31 = (a <<< k).toNat % 32 := Nat.and_two_pow_sub_one_eq_mod _ 5
  have hcut : a.toNat * 2 ^ k % 2 ^ 12 % 32 = a.toNat * 2 ^ k % 32 := Nat.mod_mod_of_dvd _ (by decide)
  rw [BitVec.toNat_setWidth, BitVec.toNat_and, BitVec.toNat_ofNat, BitVec.toNat_ofNat]
  change ((a <<< k).toNat &&& 31) % 2 ^ 8 = _
  rw [hmask, BitVec.toNat_shiftLeft, Nat.shiftLeft_eq, hcut]

/-! ### The commands, case by case -/

section Commands
variable {s : State}

theorem exec_pkrPut8_of_unpack (h : s.pdir = .unpack) (b : Byte) : exec (.pkrPut8 b) s = .next (s.latch .pkrMode) :=
  if_pos (by simp [h])

theorem exec_pkrPut8_of_full (h : s.pdir = .pack) (hn : 4 < s.pcnt.toNat) (b : Byte) :
    exec (.pkrPut8 b) s = .next (s.latch .pkrOverflow) :=
  (if_neg (not_not.2 h)).trans (if_pos hn)

theorem exec_pkrPut8_of_room (h : s.pdir = .pack) (hn : s.pcnt.toNat ≤ 4) (b : Byte) :
    exec (.pkrPut8 b) s = .next (s.putBits 8 (b.setWidth 12)) :=
  (if_neg (not_not.2 h)).trans (if_neg (not_lt.2 hn))

theorem exec_pkrPut5_of_pack (h : s.pdir = .pack) (x : Sym) : exec (.pkrPut5 x) s = .next (s.latch .pkrMode) :=
  if_pos (by simp [h])

theorem exec_pkrPut5_of_full (h : s.pdir = .unpack) (hn : 7 < s.pcnt.toNat) (x : Sym) :
    exec (.pkrPut5 x) s = .next (s.latch .pkrOverflow) :=
  (if_neg (not_not.2 h)).trans (if_pos hn)

theorem exec_pkrPut5_of_room (h : s.pdir = .unpack) (hn : s.pcnt.toNat ≤ 7) (x : Sym) :
    exec (.pkrPut5 x) s = .next (s.putBits 5 (x.setWidth 12)) :=
  (if_neg (not_not.2 h)).trans (if_neg (not_lt.2 hn))

theorem exec_pkrGet_of_few (hn : s.pcnt.toNat < outWidth s.pdir) : exec .pkrGet s = .next (s.latch .pkrUnderflow) :=
  if_pos hn

theorem exec_pkrGet_of_unit (hn : outWidth s.pdir ≤ s.pcnt.toNat) : exec .pkrGet s = .next (s.takeBits (outWidth s.pdir)) :=
  if_neg (not_lt.2 hn)

theorem exec_pkrFlush_of_unpack (h : s.pdir = .unpack) : exec .pkrFlush s = .next (s.latch .pkrMode) :=
  if_pos (by simp [h])

theorem exec_pkrFlush_of_empty (h : s.pdir = .pack) (hn : s.pcnt.toNat = 0) : exec .pkrFlush s = .next s :=
  (if_neg (not_not.2 h)).trans (if_pos hn)

theorem exec_pkrFlush_of_full (h : s.pdir = .pack) (hn : 4 < s.pcnt.toNat) : exec .pkrFlush s = .next (s.latch .pkrOverflow) :=
  (if_neg (not_not.2 h)).trans ((if_neg (Nat.ne_zero_of_lt hn)).trans (if_pos hn))

theorem exec_pkrFlush_of_held (h : s.pdir = .pack) (hpos : 1 ≤ s.pcnt.toNat) (hn : s.pcnt.toNat ≤ 4) :
    exec .pkrFlush s = .next { s with
      pout := BitVec.ofNat 8 (s.pacc.toNat * 2 ^ (5 - s.pcnt.toNat) % 32), pacc := 0#12, pcnt := 0#4 } := by
  rw [← flushSymbol_eq]
  exact (if_neg (not_not.2 h)).trans ((if_neg (Nat.ne_zero_of_lt hpos)).trans (if_neg (not_lt.2 hn)))

theorem exec_pkrEnd_of_pack (h : s.pdir = .pack) : exec .pkrEnd s = .next (s.latch .pkrMode) := if_pos (by simp [h])

theorem exec_pkrEnd_of_long (h : s.pdir = .unpack) (hn : 4 < s.pcnt.toNat) : exec .pkrEnd s = .next (s.latch .invalidLength) :=
  (if_neg (not_not.2 h)).trans (if_pos hn)

theorem exec_pkrEnd_of_nonzero (h : s.pdir = .unpack) (hn : s.pcnt.toNat ≤ 4) (ha : s.pacc ≠ 0#12) :
    exec .pkrEnd s = .next (s.latch .invalidPadding) :=
  (if_neg (not_not.2 h)).trans ((if_neg (not_lt.2 hn)).trans (if_pos ha))

theorem exec_pkrEnd_of_padding (h : s.pdir = .unpack) (hn : s.pcnt.toNat ≤ 4) (ha : s.pacc = 0#12) :
    exec .pkrEnd s = .next { s with pacc := 0#12, pcnt := 0#4 } :=
  (if_neg (not_not.2 h)).trans ((if_neg (not_lt.2 hn)).trans (if_neg (not_not.2 ha)))

/-- PKR.GET keeps the direction, whether it takes a unit or fails. -/
theorem exec_pkrGet_pdir {t : State} (h : exec .pkrGet s = .next t) : t.pdir = s.pdir := by
  obtain hn | hn := lt_or_ge s.pcnt.toNat (outWidth s.pdir)
  · cases (exec_pkrGet_of_few hn).symm.trans h; exact State.latch_pdir ..
  · cases (exec_pkrGet_of_unit hn).symm.trans h; rfl

/-! ### The queue of bits -/

/-- A unit put goes in at the queue's end. -/
theorem stream_putBits {n : Nat} (x : BitVec n) (hn : s.pcnt.toNat + n ≤ 12) :
    (s.putBits n (x.setWidth 12)).stream = s.stream ++ bitsOf n x.toNat := by
  have hcnt : (BitVec.ofNat 4 (s.pcnt.toNat + n)).toNat = s.pcnt.toNat + n := Nat.mod_eq_of_lt (by omega)
  rw [State.stream, State.stream, bitsOf_append _ _ x.isLt, putBits_eq s x (by omega), hcnt, BitVec.toNat_ofNat, bitsOf_mod hn]

/-- A unit taken comes out of the queue's front. -/
theorem stream_takeBits (hn : outWidth s.pdir ≤ s.pcnt.toNat) :
    s.stream = bitsOf (outWidth s.pdir) (s.takeBits (outWidth s.pdir)).pout.toNat ++ (s.takeBits (outWidth s.pdir)).stream := by
  obtain ⟨h5, h8⟩ := outWidth_bounds s.pdir
  have hlt := s.pcnt.isLt
  have hcnt : (BitVec.ofNat 4 (s.pcnt.toNat - outWidth s.pdir)).toNat = s.pcnt.toNat - outWidth s.pdir :=
    Nat.mod_eq_of_lt (by omega)
  rw [takeBits_eq, State.stream, State.stream, hcnt, BitVec.toNat_ofNat, BitVec.toNat_ofNat, bitsOf_mod h8,
    bitsOf_mod (m := 12) (by omega), bitsOf_mod le_rfl, ← bitsOf_add, Nat.add_sub_cancel' hn]

end Commands

/-! ### The commands' statements -/

/-- Settles O36: the command has no case but one. -/
theorem pkrInitEmptiesThePacker : Obligations.PkrInitEmptiesThePacker := by
  refine ⟨decode_of_encode_eq rfl, decode_of_encode_eq rfl, fun w hop hne => ?reserved, fun s dir => rfl,
    fun s t dir h => ?flags⟩
  case reserved => exact decode_of_reservedField (o := .pkrInit) hop (by decide) hne
  case flags =>
    cases h
    cases dir <;> exact ⟨rfl, rfl⟩

/-- Settles O37: the three cases of each put, and the values written out by `putBits_eq`. -/
theorem putsAppendOneUnit : Obligations.PutsAppendOneUnit := by
  refine ⟨fun b => decode_of_encode_eq rfl, fun w hop hne => ?reserved8, fun x => decode_of_encode_eq rfl,
    fun w hop hne => ?reserved5, fun s b hp hn => ?put8, fun s x hp hn => ?put5, fun s b x => ?errors⟩
  case reserved8 => exact decode_of_reservedField (o := .pkrPut8) hop (by decide) hne
  case reserved5 => exact decode_of_reservedField (o := .pkrPut5) hop (by decide) hne
  case put8 =>
    have hexec := exec_pkrPut8_of_room hp hn b
    rw [putBits_eq s b (by decide)] at hexec
    refine ⟨_, hexec, rfl, ?_, ppz_iff _, fun hinv => ?_⟩
    · rw [pav_iff_outWidth_le, hp, outWidth, BitVec.toNat_ofNat]
      omega
    · exact shiftIn_lt hinv.packerBounds.pacc_lt b.isLt (by omega)
  case put5 =>
    have hexec := exec_pkrPut5_of_room hp hn x
    rw [putBits_eq s x (by decide)] at hexec
    refine ⟨_, hexec, rfl, ?_, ppz_iff _, fun hinv => ?_⟩
    · rw [pav_iff_outWidth_le, hp, outWidth, BitVec.toNat_ofNat, Nat.mod_eq_of_lt (by omega)]
    · exact shiftIn_lt hinv.packerBounds.pacc_lt x.isLt (by omega)
  case errors =>
    exact ⟨fun hp => exec_pkrPut8_of_unpack hp b, fun hp hn => exec_pkrPut8_of_full hp hn b,
      fun hp => exec_pkrPut5_of_pack hp x, fun hp hn => exec_pkrPut5_of_full hp hn x⟩

/-- Settles O38: the two cases of PKR.GET, and the values written out by `takeBits_eq`. -/
theorem pkrGetTakesTheOldestUnit : Obligations.PkrGetTakesTheOldestUnit := by
  refine ⟨decode_of_encode_eq rfl, fun w hop hne => decode_formatN_of_ne (o := .pkrGet) rfl hop hne, fun s w hw => ?_⟩
  obtain rfl : w = outWidth s.pdir := hw.trans (outWidth_eq_ite s.pdir).symm
  refine ⟨fun hn => ⟨?unit, fun hinv => ⟨?value, ?left⟩⟩, fun t ht => ⟨?pav, ppz_iff t⟩, exec_pkrGet_of_few⟩
  case unit => rw [exec_pkrGet_of_unit hn, takeBits_eq]
  case value =>
    rw [Nat.div_lt_iff_lt_mul (Nat.two_pow_pos _), ← Nat.pow_add, Nat.add_sub_cancel' hn]
    exact hinv.packerBounds.pacc_lt
  case left =>
    have hcount := hinv.packerBounds.pcnt_le
    have hwidth := (outWidth_bounds s.pdir).1
    omega
  case pav => rw [pav_iff_outWidth_le, exec_pkrGet_pdir ht]

/-- Settles O39: the four cases of PKR.FLUSH. -/
theorem pkrFlushPadsOnTheRight : Obligations.PkrFlushPadsOnTheRight := by
  refine ⟨decode_of_encode_eq rfl, fun w hop hne => decode_formatN_of_ne (o := .pkrFlush) rfl hop hne, fun s =>
    ⟨fun hp hpos hn => ⟨_, exec_pkrFlush_of_held hp hpos hn, rfl, ?pav, rfl, fun hinv => ?value⟩,
      fun hp hn => exec_pkrFlush_of_empty hp (congrArg BitVec.toNat hn), exec_pkrFlush_of_full, exec_pkrFlush_of_unpack⟩⟩
  case pav =>
    rw [State.pav, hp]
    rfl
  case value =>
    calc s.pacc.toNat * 2 ^ (5 - s.pcnt.toNat) < 2 ^ s.pcnt.toNat * 2 ^ (5 - s.pcnt.toNat) :=
          Nat.mul_lt_mul_of_pos_right hinv.packerBounds.pacc_lt (Nat.two_pow_pos _)
      _ = 32 := by rw [← Nat.pow_add, Nat.add_sub_cancel' (by omega)]

/-- Settles O40: the four cases of PKR.END. -/
theorem pkrEndChecksThePadding : Obligations.PkrEndChecksThePadding := by
  refine ⟨decode_of_encode_eq rfl, fun w hop hne => decode_formatN_of_ne (o := .pkrEnd) rfl hop hne, fun s =>
    ⟨fun hp hn ha => ⟨_, exec_pkrEnd_of_padding hp hn ha, rfl, ?pav, rfl⟩, exec_pkrEnd_of_pack, exec_pkrEnd_of_long,
      exec_pkrEnd_of_nonzero⟩⟩
  case pav =>
    rw [State.pav, hp]
    rfl

/-- Settles O42: the queue's end and front are those of `stream_putBits` and `stream_takeBits`. -/
theorem packerIsAQueueOfBits : Obligations.PackerIsAQueueOfBits := by
  refine ⟨fun s dir => ⟨_, rfl, rfl⟩, fun s b _ hp hn => ⟨_, exec_pkrPut8_of_room hp hn b, stream_putBits b (by omega)⟩,
    fun s x _ hp hn => ⟨_, exec_pkrPut5_of_room hp hn x, stream_putBits x (by omega)⟩,
    fun s _ hn => ⟨_, exec_pkrGet_of_unit hn, stream_takeBits hn⟩⟩

end Sys2Proof.Machine
end

section
/-!
PROOFS. Frame of the packer's commands (spec/43_packer.md R130 to R136, spec/60_exceptions.md R159).
-/
namespace Sys2Proof.Machine

/-- The command failed with one of the given errors and changed no more than the latch. -/
def FailedWith (errors : List ErrCode) (s t : State) : Prop := ∃ e ∈ errors, t = s.latch e

/-- A check that raises one of the given errors, before the rest of a command's rule. -/
theorem failedWith_or_of_check {p q : Prop} [Decidable p] {e : ErrCode} {errors : List ErrCode} {r : Result} {s t : State}
    (h : (if p then raise e s else r) = .next t) (he : e ∈ errors) (hr : r = .next t → FailedWith errors s t ∨ q) :
    FailedWith errors s t ∨ q := by
  split at h
  · cases h; exact .inl ⟨e, he, rfl⟩
  · exact hr h

/-- Everything PKR.PUT8 can do. -/
theorem exec_pkrPut8_cases {b : Byte} {s t : State} (h : exec (.pkrPut8 b) s = .next t) :
    FailedWith [.pkrMode, .pkrOverflow] s t ∨ ∃ a n, t = { s with pacc := a, pcnt := n } :=
  failedWith_or_of_check h (by decide) fun h => failedWith_or_of_check h (by decide) fun h => by
    cases h; exact .inr ⟨_, _, rfl⟩

/-- Everything PKR.PUT5 can do. -/
theorem exec_pkrPut5_cases {x : Sym} {s t : State} (h : exec (.pkrPut5 x) s = .next t) :
    FailedWith [.pkrMode, .pkrOverflow] s t ∨ ∃ a n, t = { s with pacc := a, pcnt := n } :=
  failedWith_or_of_check h (by decide) fun h => failedWith_or_of_check h (by decide) fun h => by
    cases h; exact .inr ⟨_, _, rfl⟩

/-- Everything PKR.GET can do. -/
theorem exec_pkrGet_cases {s t : State} (h : exec .pkrGet s = .next t) :
    FailedWith [.pkrUnderflow] s t ∨ ∃ a n o, t = { s with pacc := a, pcnt := n, pout := o } :=
  failedWith_or_of_check h (by decide) fun h => by cases h; exact .inr ⟨_, _, _, rfl⟩

/-- Everything PKR.FLUSH can do. -/
theorem exec_pkrFlush_cases {s t : State} (h : exec .pkrFlush s = .next t) :
    FailedWith [.pkrMode, .pkrOverflow] s t ∨ ∃ a n o, t = { s with pacc := a, pcnt := n, pout := o } := by
  refine failedWith_or_of_check h (by decide) fun h => ?_
  split at h
  · cases h; exact .inr ⟨s.pacc, s.pcnt, s.pout, rfl⟩
  · exact failedWith_or_of_check h (by decide) fun h => by cases h; exact .inr ⟨_, _, _, rfl⟩

/-- Everything PKR.END can do. -/
theorem exec_pkrEnd_cases {s t : State} (h : exec .pkrEnd s = .next t) :
    FailedWith [.pkrMode, .invalidLength, .invalidPadding] s t ∨ ∃ a n, t = { s with pacc := a, pcnt := n } :=
  failedWith_or_of_check h (by decide) fun h => failedWith_or_of_check h (by decide) fun h =>
    failedWith_or_of_check h (by decide) fun h => by cases h; exact .inr ⟨_, _, rfl⟩

/-- New values of PACC, PCNT, PDIR and POUT keep everything else. -/
theorem packer_frame (s : State) (a : Shift) (n : BitVec 4) (d : Dir) (o : Byte) :
    let t := { s with pacc := a, pcnt := n, pdir := d, pout := o }
    BusKept s t ∧ DividerKept s t ∧ LatchKept s t := by
  simp [BusKept, DividerKept, LatchKept]

/-- The frame of a command that fails or gives the packer new bits and a new output. -/
theorem frame_of_failedWith_or_packer {errors : List ErrCode} {s t : State}
    (h : FailedWith errors s t ∨ ∃ a n o, t = { s with pacc := a, pcnt := n, pout := o }) :
    BusKept s t ∧ DividerKept s t ∧ t.c = s.c ∧ t.ofs = s.ofs ∧ t.pdir = s.pdir ∧ LatchOnly errors s t := by
  obtain ⟨e, he, rfl⟩ | ⟨a, n, o, rfl⟩ := h
  · obtain ⟨hbus, hdivider, ⟨-, -, hpdir, -⟩, hc, hofs, hlatch⟩ := latch_frame he s
    exact ⟨hbus, hdivider, hc, hofs, hpdir, hlatch⟩
  · obtain ⟨hbus, hdivider, hlatch⟩ := packer_frame s a n s.pdir o
    exact ⟨hbus, hdivider, rfl, rfl, rfl, .inl hlatch⟩

/-- The frame of a command that fails or gives the packer new bits only. -/
theorem frame_of_failedWith_or_bits {errors : List ErrCode} {s t : State}
    (h : FailedWith errors s t ∨ ∃ a n, t = { s with pacc := a, pcnt := n }) :
    BusKept s t ∧ DividerKept s t ∧ t.c = s.c ∧ t.ofs = s.ofs ∧ t.pdir = s.pdir ∧ t.pout = s.pout ∧
      LatchOnly errors s t := by
  have hout : t.pout = s.pout := by
    obtain ⟨e, -, rfl⟩ | ⟨a, n, rfl⟩ := h
    · exact State.latch_pout s e
    · rfl
  obtain ⟨hbus, hdivider, hc, hofs, hpdir, hlatch⟩ :=
    frame_of_failedWith_or_packer (h.imp_right fun ⟨a, n, ht⟩ => ⟨a, n, s.pout, ht⟩)
  exact ⟨hbus, hdivider, hc, hofs, hpdir, hout, hlatch⟩

/-- Settles O50: each command latches one of its errors or gives the packer new values. -/
theorem packerCommandsFrame : Obligations.PackerCommandsFrame := by
  refine fun s t => ⟨fun dir h => ?init, fun i hi h => ?puts, fun h => frame_of_failedWith_or_packer (exec_pkrGet_cases h),
    fun h => frame_of_failedWith_or_packer (exec_pkrFlush_cases h), fun h => frame_of_failedWith_or_bits (exec_pkrEnd_cases h)⟩
  case init =>
    cases h
    obtain ⟨hbus, hdivider, hlatch⟩ := packer_frame s 0#12 0#4 dir 0#8
    exact ⟨hbus, hdivider, rfl, rfl, hlatch⟩
  case puts =>
    obtain ⟨b, rfl⟩ | ⟨x, rfl⟩ := hi
    · exact frame_of_failedWith_or_bits (exec_pkrPut8_cases h)
    · exact frame_of_failedWith_or_bits (exec_pkrPut5_cases h)

end Sys2Proof.Machine
end

section
/-!
PROOFS. The pack and unpack procedures (spec/43_packer.md R138, R139): every turn regroups the bits put into units of the output
width.
-/
namespace Sys2Proof.Machine

/-! ### An idle packer -/

/-- The block is idle without an error and its packer works in the given direction, within its bounds. -/
structure Ready (d : Dir) (s : State) : Prop where
  busy : s.busy = false
  err : s.err = false
  pdir : s.pdir = d
  bounds : PackerBounds s

theorem State.length_stream (s : State) : s.stream.length = s.pcnt.toNat := bitsOf_length _ _

theorem State.stream_of_pcnt_zero {s : State} (h : s.pcnt = 0#4) : s.stream = [] := by rw [State.stream, h]; rfl

/-- POUT holds at most one unit (spec/10_state.md R30). -/
theorem Ready.pout_lt {d : Dir} {s : State} (h : Ready d s) : s.pout.toNat < 2 ^ outWidth d := by
  cases d with
  | pack => exact h.bounds.pout_lt h.pdir
  | unpack => exact s.pout.isLt

/-- The state with the command's word in PEND, in which an idle block runs it (`command_of_idle`). -/
def State.pending (s : State) (i : Instr) : State := { s with pend := encode i }

theorem Ready.pending {d : Dir} {s : State} (h : Ready d s) (i : Instr) : Ready d (s.pending i) :=
  ⟨h.busy, h.err, h.pdir, h.bounds⟩

theorem Ready.afterCommand_eq {d : Dir} {s t : State} {i : Instr} (h : Ready d s) (hexec : exec i (s.pending i) = .next t) :
    afterCommand i s = t :=
  afterCommand_of_next ((command_of_idle h.busy h.err i).trans hexec)

/-- PKR.INIT makes an idle block's packer ready and empty. -/
theorem ready_pkrInit {s : State} (hb : s.busy = false) (he : s.err = false) (d : Dir) :
    Ready d (afterCommand (.pkrInit d) s) ∧ (afterCommand (.pkrInit d) s).pcnt = 0#4 := by
  have hcommand : command (.pkrInit d) s =
      .next { s.pending (.pkrInit d) with pacc := 0#12, pcnt := 0#4, pdir := d, pout := 0#8 } := command_of_idle hb he _
  rw [afterCommand_of_next hcommand]
  exact ⟨⟨hb, he, rfl, packerBounds_empty (s.pending (.pkrInit d)) fun _ => by decide⟩, rfl⟩

/-! ### One unit in, the complete units out -/

/-- From a packer without a complete unit the command appends these bits to the queue. -/
def Appends (d : Dir) (i : Instr) (bits : List Bool) : Prop :=
  ∀ s : State, Ready d s → s.pcnt.toNat < outWidth d →
    Ready d (afterCommand i s) ∧ (afterCommand i s).stream = s.stream ++ bits

/-- A unit put where there is room. -/
theorem Ready.putBits {d : Dir} {s : State} (h : Ready d s) {n : Nat} (x : BitVec n) (hn : s.pcnt.toNat + n ≤ 12) :
    Ready d (s.putBits n (x.setWidth 12)) :=
  ⟨h.busy, h.err, h.pdir, h.bounds.putBits hn ((BitVec.toNat_setWidth_of_le (by omega)).trans_lt x.isLt)⟩

theorem appends_pkrPut8 (b : Byte) : Appends .pack (.pkrPut8 b) (bitsOf 8 b.toNat) := by
  intro s h hn
  have hroom : s.pcnt.toNat + 8 ≤ 12 := Nat.add_le_add_right (Nat.le_of_lt_succ hn) 8
  rw [h.afterCommand_eq (exec_pkrPut8_of_room (h.pending _).pdir (Nat.le_of_lt_succ hn) b)]
  exact ⟨(h.pending _).putBits b hroom, stream_putBits b hroom⟩

theorem appends_pkrPut5 (x : Sym) : Appends .unpack (.pkrPut5 x) (bitsOf 5 x.toNat) := by
  intro s h hn
  have hroom : s.pcnt.toNat + 5 ≤ 12 := Nat.add_le_add_right (Nat.le_of_lt_succ hn) 5
  rw [h.afterCommand_eq (exec_pkrPut5_of_room (h.pending _).pdir (Nat.le_of_lt_succ hn) x)]
  exact ⟨(h.pending _).putBits x hroom, stream_putBits x hroom⟩

/-- A unit taken where one is held. -/
theorem Ready.pkrGet {d : Dir} {s : State} (h : Ready d s) (hn : outWidth d ≤ s.pcnt.toNat) :
    Ready d (afterCommand .pkrGet s) ∧
      s.stream = bitsOf (outWidth d) (afterCommand .pkrGet s).pout.toNat ++ (afterCommand .pkrGet s).stream := by
  have hp := h.pending .pkrGet
  have hunit : outWidth (s.pending .pkrGet).pdir ≤ (s.pending .pkrGet).pcnt.toNat := by rw [hp.pdir]; exact hn
  have hstream := stream_takeBits hunit
  have hbounds := hp.bounds.takeBits hunit
  rw [h.afterCommand_eq (exec_pkrGet_of_unit hunit)]
  rw [hp.pdir] at hstream hbounds ⊢
  exact ⟨⟨hp.busy, hp.err, hp.pdir, hbounds⟩, hstream⟩

/-- These units and the bits left in the packer, fewer than a unit, are the given bits regrouped. -/
structure Regroups (d : Dir) (bits : List Bool) (r : List Byte × State) : Prop where
  ready : Ready d r.2
  left_lt : r.2.pcnt.toNat < outWidth d
  units_lt : ∀ o ∈ r.1, o.toNat < 2 ^ outWidth d
  bits_eq : bits = (r.1.flatMap fun o => bitsOf (outWidth d) o.toNat) ++ r.2.stream

/-- With no complete unit held, nothing comes out. -/
theorem regroups_nil {d : Dir} {s : State} (h : Ready d s) (hn : s.pcnt.toNat < outWidth d) : Regroups d s.stream ([], s) :=
  ⟨h, hn, nofun, rfl⟩

/-- Output and more output after it. -/
theorem Regroups.append {d : Dir} {bits more : List Bool} {r q : List Byte × State} (hr : Regroups d bits r)
    (hq : Regroups d (r.2.stream ++ more) q) : Regroups d (bits ++ more) (r.1 ++ q.1, q.2) := by
  refine ⟨hq.ready, hq.left_lt, List.forall_mem_append.2 ⟨hr.units_lt, hq.units_lt⟩, ?_⟩
  rw [hr.bits_eq, List.append_assoc, hq.bits_eq, ← List.append_assoc, ← List.flatMap_append]

/-- No bit is lost. -/
theorem Regroups.length_eq {d : Dir} {bits : List Bool} {r : List Byte × State} (h : Regroups d bits r) :
    bits.length = outWidth d * r.1.length + r.2.pcnt.toNat := by
  rw [h.bits_eq, List.length_append, length_flatMap_bitsOf, State.length_stream]

/-- The loop takes every complete unit, given as many turns as units are held. -/
theorem drain_regroups {d : Dir} {s : State} {n : Nat} (h : Ready d s) (hn : s.pcnt.toNat < outWidth d * (n + 1)) :
    Regroups d s.stream (drain n s) := by
  induction n generalizing s with
  | zero => exact regroups_nil h (hn.trans_eq (Nat.mul_one _))
  | succ n ih =>
    have hpav : s.pav = true ↔ outWidth d ≤ s.pcnt.toNat := by rw [pav_iff_outWidth_le, h.pdir]
    by_cases hunit : outWidth d ≤ s.pcnt.toNat
    · obtain ⟨hready, hstream⟩ := h.pkrGet hunit
      have hcount : (afterCommand .pkrGet s).pcnt.toNat < outWidth d * (n + 1) := by
        have hlength := congrArg List.length hstream
        rw [List.length_append, bitsOf_length, State.length_stream, State.length_stream] at hlength
        rw [Nat.mul_succ] at hn
        omega
      have hrest := ih hready hcount
      rw [drain, if_pos (hpav.2 hunit)]
      refine ⟨hrest.ready, hrest.left_lt, List.forall_mem_cons.2 ⟨hready.pout_lt, hrest.units_lt⟩, ?_⟩
      rw [hstream, List.flatMap_cons, List.append_assoc, ← hrest.bits_eq]
    · rw [drain, if_neg (mt hpav.1 hunit)]
      exact regroups_nil h (not_le.1 hunit)

/-- Units put one after the other, each with every complete unit taken after it. -/
theorem putAll_regroups {α : Type} {d : Dir} {put : α → Instr} {bits : α → List Bool}
    (happends : ∀ x, Appends d (put x) (bits x)) {xs : List α} {s : State} (h : Ready d s) (hleft : s.pcnt.toNat < outWidth d) :
    Regroups d (s.stream ++ xs.flatMap bits) (putAll (xs.map put) s) := by
  induction xs generalizing s with
  | nil => exact ⟨h, hleft, nofun, List.append_nil _⟩
  | cons x xs ih =>
    obtain ⟨hready, hstream⟩ := happends x s h hleft
    have henough : (afterCommand (put x) s).pcnt.toNat < outWidth d * (2 + 1) := by
      have hheld := hready.bounds.pcnt_le
      have hwidth := (outWidth_bounds d).1
      omega
    have hturn := drain_regroups hready henough
    rw [List.flatMap_cons, ← List.append_assoc, ← hstream]
    exact hturn.append (ih hturn.ready hturn.left_lt)

/-- The same from PKR.INIT. -/
theorem putAll_pkrInit_regroups {α : Type} {d : Dir} {put : α → Instr} {bits : α → List Bool}
    (happends : ∀ x, Appends d (put x) (bits x)) (xs : List α) {s : State} (hb : s.busy = false) (he : s.err = false) :
    Regroups d (xs.flatMap bits) (putAll (xs.map put) (afterCommand (.pkrInit d) s)) := by
  obtain ⟨hready, hcount⟩ := ready_pkrInit hb he d
  have hzero : (afterCommand (.pkrInit d) s).pcnt.toNat = 0 := congrArg BitVec.toNat hcount
  have h := putAll_regroups happends (xs := xs) hready (by rw [hzero]; exact (Nat.succ_pos 4).trans_le (outWidth_bounds d).1)
  rwa [State.stream_of_pcnt_zero hcount, List.nil_append] at h

/-! ### The pack procedure -/

/-- The symbol of the flush is the bits held and zero bits on the right. -/
theorem bitsOf_flushSymbol (a : Nat) {p : Nat} (hp : p ≤ 5) :
    bitsOf 5 (BitVec.ofNat 8 (a * 2 ^ (5 - p) % 32)).toNat = bitsOf p a ++ List.replicate (5 - p) false := by
  have hsum : p + (5 - p) = 5 := Nat.add_sub_cancel' hp
  have hmask : bitsOf 5 (a * 2 ^ (5 - p) % 32) = bitsOf 5 (a * 2 ^ (5 - p)) := bitsOf_mod (m := 5) le_rfl _
  rw [BitVec.toNat_ofNat, bitsOf_mod (by decide), hmask, ← bitsOf_zero, bitsOf_append p a (Nat.two_pow_pos _), hsum, Nat.add_zero]

/-- The bits held, taken out with the padding. -/
theorem Ready.pkrFlush {s : State} (h : Ready .pack s) (hpos : 1 ≤ s.pcnt.toNat) (hn : s.pcnt.toNat ≤ 4) :
    Ready .pack (afterCommand .pkrFlush s) ∧ (afterCommand .pkrFlush s).pcnt = 0#4 ∧
      bitsOf 5 (afterCommand .pkrFlush s).pout.toNat = s.stream ++ List.replicate (5 - s.pcnt.toNat) false := by
  rw [h.afterCommand_eq (exec_pkrFlush_of_held (h.pending _).pdir hpos hn)]
  have hout : (BitVec.ofNat 8 (s.pacc.toNat * 2 ^ (5 - s.pcnt.toNat) % 32)).toNat < 32 :=
    (Nat.mod_le _ _).trans_lt (Nat.mod_lt _ (by decide))
  exact ⟨⟨h.busy, h.err, h.pdir, packerBounds_empty (s.pending .pkrFlush) fun _ => hout⟩, rfl,
    bitsOf_flushSymbol s.pacc.toNat (Nat.le_succ_of_le hn)⟩

/-- The procedure's tail emits what is held, filled up to a symbol, and leaves the packer empty. -/
theorem flushTail_regroups {s : State} (h : Ready .pack s) (hn : s.pcnt.toNat < 5) :
    Regroups .pack (s.stream ++ List.replicate ((5 - s.pcnt.toNat) % 5) false) (flushTail s) ∧ (flushTail s).2.pcnt = 0#4 := by
  by_cases hpos : 0 < s.pcnt.toNat
  · obtain ⟨hready, hcount, hbits⟩ := h.pkrFlush hpos (Nat.le_of_lt_succ hn)
    rw [flushTail, if_pos hpos, Nat.mod_eq_of_lt (Nat.sub_lt (by decide) hpos)]
    refine ⟨⟨hready, by rw [hcount]; decide, List.forall_mem_singleton.2 hready.pout_lt, ?_⟩, hcount⟩
    rw [State.stream_of_pcnt_zero hcount, List.flatMap_singleton, List.append_nil]
    exact hbits.symm
  · have hzero : s.pcnt.toNat = 0 := Nat.eq_zero_of_not_pos hpos
    rw [flushTail, if_neg hpos, hzero, Nat.sub_zero, Nat.mod_self, List.replicate_zero, List.append_nil]
    exact ⟨regroups_nil h hn, BitVec.eq_of_toNat_eq hzero⟩

/-- The zero bits that fill the last symbol of a byte string (spec/43_packer.md R138). -/
def paddingFor (bytes : List Byte) : Nat := (5 - 8 * bytes.length % 5) % 5

/-- The pack procedure regroups the bytes' bits and the padding by five, and leaves the packer empty. -/
theorem packProcedure_regroups (bytes : List Byte) {s : State} (hb : s.busy = false) (he : s.err = false) :
    Regroups .pack ((bytes.flatMap fun b => bitsOf 8 b.toNat) ++ List.replicate (paddingFor bytes) false)
      (packProcedure bytes s) ∧ (packProcedure bytes s).2.pcnt = 0#4 := by
  have hputs := putAll_pkrInit_regroups appends_pkrPut8 bytes hb he
  obtain ⟨htail, hcount⟩ := flushTail_regroups hputs.ready hputs.left_lt
  have hleft : (putAll (bytes.map .pkrPut8) (afterCommand (.pkrInit .pack) s)).2.pcnt.toNat = 8 * bytes.length % 5 := by
    have hlength := hputs.length_eq
    have hlt := hputs.left_lt
    rw [length_flatMap_bitsOf] at hlength
    simp only [outWidth] at hlength hlt
    omega
  rw [hleft] at htail
  exact ⟨hputs.append htail, hcount⟩

/-- Settles O43: the symbols are counted by their bits, since none are left in the packer. -/
theorem packProcedureRegroupsBytes : Obligations.PackProcedureRegroupsBytes := by
  intro s bytes hb he
  obtain ⟨h, hcount⟩ := packProcedure_regroups bytes hb he
  have hbits := h.bits_eq
  rw [State.stream_of_pcnt_zero hcount, List.append_nil] at hbits
  refine ⟨hbits.symm, ?_, h.units_lt, h.ready.err, hcount⟩
  have hlength := congrArg List.length hbits
  rw [List.length_append, List.length_replicate, length_flatMap_bitsOf, length_flatMap_bitsOf, outWidth, paddingFor] at hlength
  omega

/-! ### The unpack procedure -/

theorem unpackBody_regroups (symbols : List Sym) {s : State} (hb : s.busy = false) (he : s.err = false) :
    Regroups .unpack (symbols.flatMap fun x => bitsOf 5 x.toNat) (unpackBody symbols s) :=
  putAll_pkrInit_regroups appends_pkrPut5 symbols hb he

/-- PACC is 0 exactly when no held bit is set. -/
theorem pacc_eq_zero_iff {s : State} (h : PackerBounds s) : s.pacc = 0#12 ↔ true ∉ s.stream :=
  BitVec.toNat_inj.symm.trans (true_notMem_bitsOf_iff h.pacc_lt).symm

/-- PKR.END succeeds exactly with at most 4 bits held, all zero. -/
theorem afterCommand_pkrEnd_err {s : State} (h : Ready .unpack s) :
    (afterCommand .pkrEnd s).err = false ↔ s.stream.length ≤ 4 ∧ true ∉ s.stream := by
  rw [State.length_stream, ← pacc_eq_zero_iff h.bounds]
  have hp : (s.pending .pkrEnd).pdir = .unpack := h.pdir
  by_cases hn : s.pcnt.toNat ≤ 4
  · by_cases ha : s.pacc = 0#12
    · rw [h.afterCommand_eq (exec_pkrEnd_of_padding hp hn ha)]
      exact iff_of_true h.err ⟨hn, ha⟩
    · rw [h.afterCommand_eq (exec_pkrEnd_of_nonzero hp hn ha), State.latch_err]
      exact iff_of_false (by decide) fun hzero => ha hzero.2
  · rw [h.afterCommand_eq (exec_pkrEnd_of_long hp (not_le.1 hn)), State.latch_err]
    exact iff_of_false (by decide) fun hshort => hn hshort.1

/-- Settles O44: the procedure's loop regroups the symbols' bits by eight, and PKR.END checks what is left. -/
theorem unpackProcedureRegroupsSymbols : Obligations.UnpackProcedureRegroupsSymbols := by
  intro s symbols hb he
  have h := unpackBody_regroups symbols hb he
  exact ⟨h.bits_eq, (State.length_stream _).trans_lt h.left_lt, h.ready.err, afterCommand_pkrEnd_err h.ready⟩

/-! ### Unpacking what was packed -/

/-- The symbols that the pack procedure emits, each in the low five bits of POUT (spec/43_packer.md R138). -/
def packedSymbols (bytes : List Byte) (s : State) : List Sym := (packProcedure bytes s).1.map fun o => o.extractLsb' 0 5

/-- The symbols' bits are the bytes' bits and the padding. -/
theorem packedSymbols_bits (bytes : List Byte) {s : State} (hb : s.busy = false) (he : s.err = false) :
    ((packedSymbols bytes s).flatMap fun x => bitsOf 5 x.toNat) =
      (bytes.flatMap fun b => bitsOf 8 b.toNat) ++ List.replicate (paddingFor bytes) false := by
  obtain ⟨hbits, -⟩ := packProcedureRegroupsBytes s bytes hb he
  have hlow (o : Byte) : bitsOf 5 (o.extractLsb' 0 5).toNat = bitsOf 5 o.toNat := by
    rw [BitVec.extractLsb'_toNat, bitsOf_mod le_rfl, Nat.shiftRight_zero]
  rw [packedSymbols, List.flatMap_map, paddingFor, ← hbits]
  simp only [hlow]

theorem packedSymbols_length (bytes : List Byte) {s : State} (hb : s.busy = false) (he : s.err = false) :
    (packedSymbols bytes s).length = (8 * bytes.length + 4) / 5 := by
  obtain ⟨-, hlength, -⟩ := packProcedureRegroupsBytes s bytes hb he
  rw [packedSymbols, List.length_map, hlength]

/-- Unpacking gives the bytes back and leaves the padding. -/
theorem unpackBody_packedSymbols (bytes : List Byte) {s t : State} (hsb : s.busy = false) (hse : s.err = false)
    (htb : t.busy = false) (hte : t.err = false) :
    (unpackBody (packedSymbols bytes s) t).1 = bytes ∧
      (unpackBody (packedSymbols bytes s) t).2.stream = List.replicate (paddingFor bytes) false := by
  have h := unpackBody_regroups (packedSymbols bytes s) htb hte
  have hbits := h.bits_eq
  rw [packedSymbols_bits bytes hsb hse] at hbits
  have hcount : bytes.length = (unpackBody (packedSymbols bytes s) t).1.length := by
    have hlength := congrArg List.length hbits
    have hlt := h.left_lt
    simp only [List.length_append, List.length_replicate, length_flatMap_bitsOf, State.length_stream, outWidth, paddingFor]
      at hlength hlt
    omega
  obtain ⟨hunits, hleft⟩ := List.append_inj hbits (by simp only [length_flatMap_bitsOf, outWidth, hcount])
  exact ⟨(bytes_eq_of_bits_eq hcount hunits).symm, hleft.symm⟩

/-- PKR.END succeeds on the padding of the pack procedure. -/
theorem unpackProcedure_packedSymbols_err (bytes : List Byte) {s t : State} (hsb : s.busy = false) (hse : s.err = false)
    (htb : t.busy = false) (hte : t.err = false) : (unpackProcedure (packedSymbols bytes s) t).2.err = false := by
  obtain ⟨-, hleft⟩ := unpackBody_packedSymbols bytes hsb hse htb hte
  refine (afterCommand_pkrEnd_err (unpackBody_regroups _ htb hte).ready).2 ?_
  have hshort : paddingFor bytes ≤ 4 := Nat.le_of_lt_succ (Nat.mod_lt _ (by decide))
  rw [hleft, List.length_replicate]
  exact ⟨hshort, by simp⟩

/-- Settles O45: the bytes come back and PKR.END accepts the padding. -/
theorem unpackAfterPackReturnsTheBytes : Obligations.UnpackAfterPackReturnsTheBytes := fun _ _ bytes hsb hse htb hte =>
  ⟨(unpackBody_packedSymbols bytes hsb hse htb hte).1, unpackProcedure_packedSymbols_err bytes hsb hse htb hte⟩

end Sys2Proof.Machine
end

section
/-!
PROOFS. The payload layout (spec/43_packer.md R140 to R144): the version byte and the hash through the pack procedure and back.
-/
namespace Sys2Proof.Machine

/-! ### The table of hash sizes and the version byte -/

/-- The columns of the table agree with each other (spec/43_packer.md R140, R143). -/
theorem hashTable (code : BitVec 3) :
    payloadLength code = (8 + hashBits code + 4) / 5 ∧
      5 * (payloadLength code + 8) = 8 + hashBits code + paddingBits code + 40 ∧
      paddingBits code = (5 - (8 + hashBits code) % 5) % 5 ∧ 0 < hashBits code := by
  revert code; decide

/-- The type code over the hash-size code (spec/43_packer.md R142). -/
theorem versionByte_toNat (kind : BitVec 4) (code : BitVec 3) : (versionByte kind code).toNat = kind.toNat * 8 + code.toNat := by
  revert kind code; decide

/-! ### Symbols by their bits -/

/-- The first symbol is the first byte's top five bits, the second its low three bits and the second byte's top two. -/
theorem firstSymbols_eq {xs : List Sym} {v b : Byte} {bits : List Bool} (hlen : 2 ≤ xs.length)
    (h : (xs.flatMap fun x => bitsOf 5 x.toNat) = bitsOf 8 v.toNat ++ (bitsOf 8 b.toNat ++ bits)) :
    xs[0]?.map BitVec.toNat = some (v.toNat / 8) ∧ xs[1]?.map BitVec.toNat = some (v.toNat % 8 * 4 + b.toNat / 64) := by
  match xs, hlen with
  | x :: y :: xs, _ =>
    have hv := v.isLt
    have hb := b.isLt
    have hfirst : bitsOf 8 v.toNat = bitsOf 5 (v.toNat / 8) ++ bitsOf 3 (v.toNat % 8) :=
      (bitsOf_add 5 3 v.toNat).trans (congrArg _ (bitsOf_mod (m := 3) le_rfl _).symm)
    have hsecond : bitsOf 8 b.toNat = bitsOf 2 (b.toNat / 64) ++ bitsOf 6 b.toNat := bitsOf_add 2 6 b.toNat
    have hacross : bitsOf 3 (v.toNat % 8) ++ bitsOf 2 (b.toNat / 64) = bitsOf 5 (v.toNat % 8 * 4 + b.toNat / 64) :=
      bitsOf_append (n := 2) 3 _ (by omega)
    rw [List.flatMap_cons, List.flatMap_cons, hfirst, hsecond, List.append_assoc, ← List.append_assoc (bitsOf 3 _),
      ← List.append_assoc (bitsOf 3 _), hacross, List.append_assoc] at h
    obtain ⟨hx, hrest⟩ := List.append_inj h (by simp)
    obtain ⟨hy, -⟩ := List.append_inj hrest (by simp)
    exact ⟨congrArg some (bitsOf_inj x.isLt (by omega) hx), congrArg some (bitsOf_inj y.isLt (by omega) hy)⟩

/-- Symbols whose bits end with `k` zero bits end with a symbol whose low `k` bits are 0. -/
theorem lastSymbol_low_zero {xs : List Sym} {bits : List Bool} {k : Nat} (hk : k ≤ 5) (hne : xs ≠ [])
    (h : (xs.flatMap fun x => bitsOf 5 x.toNat) = bits ++ List.replicate k false) :
    (xs.getLast?.map fun x => x.toNat % 2 ^ k) = some 0 := by
  obtain rfl | ⟨init, x, rfl⟩ := List.eq_nil_or_concat' xs
  · exact absurd rfl hne
  · have hcut := bitsOf_add (5 - k) k x.toNat
    rw [Nat.sub_add_cancel hk] at hcut
    rw [List.flatMap_append, List.flatMap_singleton, hcut, ← List.append_assoc, ← bitsOf_zero,
      ← bitsOf_mod le_rfl x.toNat] at h
    obtain ⟨-, hlow⟩ := List.append_inj' h (by simp)
    rw [List.getLast?_concat]
    exact congrArg some (bitsOf_inj (Nat.mod_lt _ (Nat.two_pow_pos k)) (Nat.two_pow_pos k) hlow)

/-! ### The payload -/

theorem packPayload_eq (kind : BitVec 4) (code : BitVec 3) (hash : List Byte) (s : State) :
    packPayload kind code hash s = packedSymbols (versionByte kind code :: hash) s := rfl

/-- The bits of the version byte and the hash. -/
theorem payloadBytes_bits (kind : BitVec 4) {code : BitVec 3} {hash : List Byte} (hlen : 8 * hash.length = hashBits code) :
    8 * (versionByte kind code :: hash).length = 8 + hashBits code := by
  rw [List.length_cons]
  omega

/-- The pack procedure pads by the table's count (spec/43_packer.md R143). -/
theorem payloadBytes_padding (kind : BitVec 4) {code : BitVec 3} {hash : List Byte} (hlen : 8 * hash.length = hashBits code) :
    paddingFor (versionByte kind code :: hash) = paddingBits code := by
  obtain ⟨-, -, hpad, -⟩ := hashTable code
  rw [paddingFor, payloadBytes_bits kind hlen, hpad]

/-- Settles O46: the symbols' count is that of the pack procedure, and their bits are the version byte, the hash and the padding. -/
theorem payloadsHaveTheTablesLayout : Obligations.PayloadsHaveTheTablesLayout := by
  intro s kind code hash hb he hlen
  obtain ⟨hsymbols, hlaw, hpad, hpos⟩ := hashTable code
  have hlength : (packPayload kind code hash s).length = payloadLength code := by
    rw [packPayload_eq, packedSymbols_length _ hb he, payloadBytes_bits kind hlen, hsymbols]
  have hbits := packedSymbols_bits (versionByte kind code :: hash) hb he
  rw [payloadBytes_padding kind hlen, ← packPayload_eq] at hbits
  have hversion := versionByte_toNat kind code
  have hcode := code.isLt
  have htype : (versionByte kind code).toNat / 8 = kind.toNat := by omega
  have hsize : (versionByte kind code).toNat % 8 = code.toNat := by omega
  have htwo : 2 ≤ (packPayload kind code hash s).length := by omega
  refine ⟨hlength, hlength.symm ▸ hlaw, hpad, hversion, ?last, ?_⟩
  case last => exact lastSymbol_low_zero (by omega) (List.ne_nil_of_length_pos (by omega)) hbits
  cases hash with
  | nil => exact absurd hlen hpos.ne
  | cons b hash =>
    rw [List.flatMap_cons, List.flatMap_cons, List.append_assoc, List.append_assoc] at hbits
    obtain ⟨hzeroth, hfirst⟩ := firstSymbols_eq htwo hbits
    rw [htype] at hzeroth
    rw [hsize] at hfirst
    exact ⟨hzeroth, hfirst⟩

/-- Settles O47: the payload is what the pack procedure emits for the version byte and the hash, and the padding is the table's. -/
theorem unpackingAPayloadGivesVersionAndHash : Obligations.UnpackingAPayloadGivesVersionAndHash := by
  intro s t kind code hash hsb hse htb hte hlen
  obtain ⟨hbytes, hleft⟩ := unpackBody_packedSymbols (versionByte kind code :: hash) hsb hse htb hte
  rw [payloadBytes_padding kind hlen] at hleft
  have hready := (unpackBody_regroups (packPayload kind code hash s) htb hte).ready
  refine ⟨hbytes, ?count, (pacc_eq_zero_iff hready.bounds).2 ?zero, unpackProcedure_packedSymbols_err _ hsb hse htb hte⟩
  case count => rw [← State.length_stream, packPayload_eq, hleft, List.length_replicate]
  case zero =>
    rw [packPayload_eq, hleft]
    simp

end Sys2Proof.Machine
end

section
/-!
PROOFS. The control commands (spec/44_control.md R150 to R152): their words on CMD, and what each of them does.
-/
namespace Sys2Proof.Machine

/-! ### A word written to CMD while BUSY = 0 -/

theorem regWrite_cmd_of_accepted {s : State} {w : Word} (hb : s.busy = false)
    (h : s.err = false ∨ w = 0x00000001#32 ∨ w = 0x00000002#32) : regWrite .cmd w s = s.accept w := by
  rw [regWrite_cmd_of_idle hb, if_pos ((acceptsWord_iff s w).2 h)]

/-- Under ERR = 1 the write is ignored, with BUSY = 0 by the gate and with BUSY = 1 because the first error is kept. -/
theorem regWrite_cmd_of_err {s : State} {w : Word} (he : s.err = true) (h1 : w ≠ 0x00000001#32) (h2 : w ≠ 0x00000002#32) :
    regWrite .cmd w s = s := by
  have hgate : ¬acceptsWord s w = true := by simp [acceptsWord_iff, he, h1, h2]
  cases hb : s.busy
  · rw [regWrite_cmd_of_idle hb, if_neg hgate]
  · exact (orOverrun_of_busy hb _).trans (State.latch_of_err he _)

/-- An acceptance from BUSY = 0 and the fall of BUSY leave a new PEND and nothing else (spec/20_memory.md R69, R72). -/
theorem endCommand_accept_of_idle {s : State} (hb : s.busy = false) (w : Word) :
    (s.accept w).endCommand = { s with pend := w } := by
  rw [State.endCommand_accept, ← hb]

theorem complete_accept_of_ok {s : State} {w : Word} {i : Instr} (hb : s.busy = false) (hw : decode w = .ok i) :
    complete (s.accept w) = exec i { s with pend := w } := by
  rw [complete, State.accept_pend, hw, endCommand_accept_of_idle hb]

theorem complete_accept_of_error {s : State} {w : Word} {e : DecodeError} (hb : s.busy = false) (hw : decode w = .error e) :
    complete (s.accept w) = .next (State.latch { s with pend := w } .illegalCmd) := by
  rw [complete, State.accept_pend, hw, endCommand_accept_of_idle hb, raise_eq]

/-- A word that is no command is ignored under ERR = 1; under ERR = 0 it is accepted and latches ILLEGAL_CMD
(spec/30_encoding.md R88, spec/20_memory.md R70). -/
theorem write_of_decode_error {s : State} {w : Word} {e : DecodeError} (hw : decode w = .error e) (hb : s.busy = false) :
    (s.err = true → regWrite .cmd w s = s) ∧
    (s.err = false → regWrite .cmd w s = { s with pend := w, busy := true } ∧
      complete { s with pend := w, busy := true } = .next { s with pend := w, err := true, errcode := 1#4 }) := by
  refine ⟨fun he => ?ignored, fun he => ⟨regWrite_cmd_of_accepted hb (.inl he), ?latched⟩⟩
  case ignored =>
    have hclrerr : w ≠ 0x00000001#32 := by rintro rfl; cases hw
    have hsrst : w ≠ 0x00000002#32 := by rintro rfl; cases hw
    exact regWrite_cmd_of_err he hclrerr hsrst
  case latched =>
    have hlatch := State.latch_of_not_err (s := { s with pend := w }) he .illegalCmd
    exact (complete_accept_of_error hb hw).trans (congrArg _ hlatch)

/-! ### The three commands -/

/-- Settles O21: the word 0 passes the gate only under ERR = 0, and its rule changes nothing. -/
theorem sysNopChangesNothing : Obligations.SysNopChangesNothing := by
  have hword : decode 0x00000000#32 = .ok .sysNop := decode_of_encode_eq rfl
  refine ⟨hword, fun w hop hne => ?reserved, fun s => rfl, fun s he => ?ignored, fun s hb he => ⟨?accepted, ?completed⟩⟩
  case reserved => exact decode_formatN_of_ne (o := .sysNop) rfl hop hne
  case ignored => exact regWrite_cmd_of_err he (by decide) (by decide)
  case accepted => exact regWrite_cmd_of_accepted hb (.inl he)
  case completed => exact complete_accept_of_ok hb hword

/-- Settles O22: with ERR = 0 the invariant says the latch is clear already; a reserved bit makes the word no command. -/
theorem sysClrerrClearsTheLatch : Obligations.SysClrerrClearsTheLatch := by
  refine ⟨decode_of_encode_eq rfl, fun s => rfl, fun s hinv he => ?noEffect, fun w s hop hne hb => ?reserved⟩
  case noEffect =>
    obtain ⟨-, -, hcode, -⟩ := hinv
    exact congrArg _ (State.clearError_of_not_err he (hcode.2 he))
  case reserved => exact write_of_decode_error (decode_formatN_of_ne (o := .sysClrerr) rfl hop hne) hb

/-- STATUS shows elements of the block only, so after a reset it is that of the reset state (spec/10_state.md R40, R55). -/
theorem statusWord_applyReset (s : State) : s.applyReset.statusWord = 0x0000002C#32 := by
  have hreset : State.reset.statusWord = 0x0000002C#32 := by decide
  exact hreset

/-- Settles O23: the rule is `applyReset`, and the word 2 passes the gate whatever ERR. -/
theorem sysSrstResetsTheBlock : Obligations.SysSrstResetsTheBlock := by
  refine ⟨decode_of_encode_eq rfl, fun s => ⟨_, rfl⟩, fun s t h => ?status, fun s hb => ?accepted, fun s hb => ?overrun,
    fun w s hop hne hb => ?reserved⟩
  case status => cases h; exact statusWord_applyReset s
  case accepted => exact regWrite_cmd_of_accepted hb (.inr (.inr rfl))
  case overrun => exact orOverrun_of_busy hb _
  case reserved => exact write_of_decode_error (decode_formatN_of_ne (o := .sysSrst) rfl hop hne) hb

end Sys2Proof.Machine
end

section
/-!
PROOFS. The error latch (spec/60_exceptions.md R155 to R166): overruns, the completion of a command that fails, and the latch under
an earlier error.
-/
namespace Sys2Proof.Machine

/-! ### Writes while BUSY = 1 -/

/-- The writable registers all turn a write under BUSY into an overrun (spec/20_memory.md R71). -/
theorem regWrite_of_busy {s : State} {r : Reg} (hb : s.busy = true) (hr : r = .cmd ∨ r = .ctrl ∨ ∃ k, r = .dvd k) (v : Word) :
    regWrite r v s = s.latch .overrun := by
  obtain rfl | rfl | ⟨k, rfl⟩ := hr
  all_goals exact orOverrun_of_busy hb _

/-- CMD, CTRL and the DVD words stand at aligned offsets inside the window. -/
theorem writable_of_offset {nb off : Nat} (hnb : Config.LegalNB nb)
    (hoff : off = 0x010 ∨ off = 0x008 ∨ ∃ k, k < nb / 4 ∧ off = 0x080 + 4 * k) :
    off % 4 = 0 ∧ off < 256 ∧
      (Reg.ofOffset nb off = .cmd ∨ Reg.ofOffset nb off = .ctrl ∨ ∃ k, Reg.ofOffset nb off = .dvd k) := by
  obtain rfl | rfl | ⟨k, hk, rfl⟩ := hoff
  · exact ⟨rfl, by decide, .inl rfl⟩
  · exact ⟨rfl, by decide, .inr (.inl rfl)⟩
  · exact ⟨by omega, by omega, .inr (.inr ⟨k, ofOffset_dvd nb k (by omega)⟩)⟩

/-- Settles O11: the offset is that of a writable register, whose write under BUSY is `latch .overrun`. -/
theorem writesUnderBusyLatchOverrun : Obligations.WritesUnderBusyLatchOverrun := by
  intro s off v hnb hr hb hoff hn
  obtain ⟨h4, h, hreg⟩ := writable_of_offset hnb hoff
  rw [step_write_reg hr hn h4 h rfl, regWrite_of_busy (s := s.popEvent) hb hreg]
  rfl

/-! ### A command that fails -/

/-- A command that leaves ERR = 1 where it was 0 took an error, and did nothing else. -/
theorem Effect.latched_of_err {s t : State} (h : Effect s t) (hs : s.err = false) (ht : t.err = true) :
    ∃ e : ErrCode, e ≠ .overrun ∧ t = s.latch e := by
  cases h with
  | latched e he => exact ⟨e, he, rfl⟩
  | cleared | reset => simp at ht
  | unchanged | divider | polymod | packer => simp [hs] at ht

/-- The same state under an earlier error. -/
def State.underError (s : State) (code : BitVec 4) : State := { s with err := true, errcode := code }

/-- Under an earlier error a raise changes nothing (spec/60_exceptions.md R158). -/
theorem raise_underError (e : ErrCode) (s : State) (code : BitVec 4) : raise e (s.underError code) = .next (s.underError code) :=
  congrArg _ (State.latch_of_err rfl e)

/-- A check that raises an error, in two runs of a command: `s` is left for `t` with the latch clear, and the other run starts
under an earlier error. -/
theorem check_underError {p : Prop} [Decidable p] {e : ErrCode} {r r' : Result} {s t : State} {code : BitVec 4}
    (h : (if p then raise e s else r) = .next t) (hr : r = .next t → r' = .next (s.underError code)) :
    (if p then raise e (s.underError code) else r') = .next (s.underError code) := by
  by_cases hp : p
  · rw [if_pos hp]; exact raise_underError e s code
  · rw [if_neg hp] at h ⊢; exact hr h

section Failure
variable {s t : State} (hs : s.err = false) (ht : t.err = true)
include hs ht

/-- An end of a command that keeps ERR is not the one that left ERR = 1. -/
theorem not_next_of_err {q : State} (hq : q.err = s.err) : (.next q : Result) ≠ .next t := by
  rintro ⟨⟩
  simp [hq, hs] at ht

theorem execDivStep_underError {d : BitVec 9} {m : DigitMap} (h : execDivStep d m s = .next t) (code : BitVec 4) :
    execDivStep d m (s.underError code) = .next (s.underError code) := by
  cases hd : divisorError d m with
  | none => exact absurd ((exec_divStep_of_loop hd s).symm.trans h) (not_next_of_err hs ht rfl)
  | some e => exact (exec_divStep_of_error hd _).trans (raise_underError e s code)

theorem execPkrFlush_underError (h : execPkrFlush s = .next t) (code : BitVec 4) :
    execPkrFlush (s.underError code) = .next (s.underError code) :=
  check_underError h fun h => by
    split at h
    · exact absurd h (not_next_of_err hs ht rfl)
    · rename_i hn
      exact (if_neg hn).trans (check_underError h fun h => absurd h (not_next_of_err hs ht rfl))

/-- A command that fails with the latch clear changes nothing under an earlier error: its checks do not look at the latch. -/
theorem exec_underError {i : Instr} (h : exec i s = .next t) (code : BitVec 4) :
    exec i (s.underError code) = .next (s.underError code) := by
  cases i with
  | sysNop | divClr | pmdInit | pmdSym | pmdChr | pkrInit => exact absurd h (not_next_of_err hs ht rfl)
  | sysClrerr | sysSrst => cases h; simp at ht
  | divShb b => exact check_underError h fun h => absurd h (not_next_of_err hs ht rfl)
  | divStep d m => exact execDivStep_underError hs ht h code
  | pkrPut8 b =>
    exact check_underError h fun h => check_underError h fun h => absurd h (not_next_of_err hs ht rfl)
  | pkrPut5 x =>
    exact check_underError h fun h => check_underError h fun h => absurd h (not_next_of_err hs ht rfl)
  | pkrGet => exact check_underError h fun h => absurd h (not_next_of_err hs ht rfl)
  | pkrFlush => exact execPkrFlush_underError hs ht h code
  | pkrEnd =>
    exact check_underError h fun h => check_underError h fun h => check_underError h fun h =>
      absurd h (not_next_of_err hs ht rfl)

theorem complete_underError (h : complete s = .next t) (code : BitVec 4) :
    complete (s.underError code) = .next (s.endCommand.underError code) := by
  have hpend : (s.underError code).pend = s.pend := rfl
  cases hd : decode s.pend with
  | ok i =>
    rw [complete, hd] at h
    rw [complete, hpend, hd]
    exact exec_underError (s := s.endCommand) hs ht h code
  | error e =>
    rw [complete, hpend, hd]
    exact raise_underError .illegalCmd s.endCommand code

end Failure

/-- Settles O51: the effect that sets ERR is the latch of the error, and the same checks fail under an earlier error. -/
theorem failedCommandChangesOnlyTheLatch : Obligations.FailedCommandChangesOnlyTheLatch := by
  refine fun s hs t h ht => ⟨?latched, fun code => ?underError⟩
  case latched =>
    obtain ⟨t', ht', heff⟩ := complete_effect s
    cases h.symm.trans ht'
    obtain ⟨e, he, rfl⟩ := heff.latched_of_err hs ht
    exact ⟨e, he, State.latch_of_not_err (s := s.endCommand) hs e⟩
  case underError => exact complete_underError hs ht h code

/-! ### The latch under an earlier error -/

theorem Effect.errcode {s t : State} (h : Effect s t) (hs : s.err = true) (ht : t.err = true) : t.errcode = s.errcode := by
  cases h with
  | latched e => rw [State.latch_of_err hs]
  | cleared | reset => simp at ht
  | unchanged | divider | polymod | packer => rfl

theorem Written.errcode {r : Reg} {v : Word} {s t : State} (h : Written r v s t) (hs : s.err = true) : t.errcode = s.errcode := by
  cases h with
  | overrun => rw [State.latch_of_err hs]
  | ignored | accepted | ofs | dvd => rfl

/-- Whatever the event, the first code is kept as long as ERR stays 1. -/
theorem Served.errcode {s t : State} (h : Served s t) (hs : s.err = true) (ht : t.err = true) : t.errcode = s.errcode := by
  cases h with
  | readValue | readDraw | ignored | asserted => rfl
  | wrote _ _ _ _ _ hw => exact hw.errcode hs
  | completed _ _ _ he => exact he.errcode hs ht
  | released =>
    cases hr : s.rst
    · rw [State.releaseRst_of_not_rst hr]
    · simp [State.releaseRst_of_rst hr] at ht

/-- Under ERR = 1 an overrun is all that BUSY = 1 leaves of a write, and it latches nothing new. -/
theorem Written.eq_of_err_of_busy {r : Reg} {v : Word} {s t : State} (h : Written r v s t) (hs : s.err = true)
    (hb : s.busy = true) : t = s := by
  cases h with
  | ignored => rfl
  | overrun => exact State.latch_of_err hs _
  | accepted _ hidle | ofs _ hidle | dvd _ _ hidle => simp [hb] at hidle

/-- Settles O52: taking the event off the agenda leaves the latch, and each of the three parts is a case analysis of what a step
or a write can do. -/
theorem errorsDoNotNest : Obligations.ErrorsDoNotNest :=
  ⟨fun s _ hs h ht => (step_cases h).errcode (s := s.popEvent) hs ht, fun _ _ hs _ h1 h2 => regWrite_cmd_of_err hs h1 h2,
    fun s r v hs hb => (regWrite_cases r v s).eq_of_err_of_busy hs hb⟩

end Sys2Proof.Machine
end

section
/-!
PROOFS. The reset input (spec/70_reset_and_hazards.md R195, R196): the block held while RST is asserted and reset at the release;
and SYS.SRST against a release (R197).
-/
namespace Sys2Proof.Machine

/-! ### While RST is asserted -/

section Held
variable {s : State} (hr : s.rst = true)
include hr

theorem step_turn_of_rst (hn : nextEvent s = .blockTurn) : step s = .next s.popEvent := by
  have hidle : ¬(!s.popEvent.rst && s.popEvent.busy) = true := by simp [hr]
  exact (step_turn hn).trans (if_neg hidle)

theorem step_write_of_rst {off : Nat} {v : Word} (h4 : off % 4 = 0) (h : off < 256)
    (hn : nextEvent s = .write (s.base + off) 4 v) : step s = .next s.popEvent := by
  rw [step_write h4 h hn, if_pos hr]

theorem step_read_of_rst {off : Nat} (h4 : off % 4 = 0) (h : off < 256) (hn : nextEvent s = .read (s.base + off) 4) :
    step s = .next (s.popEvent.returnDraw id) := by
  rw [step_read h4 h hn, if_pos hr]

theorem step_rstRelease_of_rst (hn : nextEvent s = .rstRelease) : step s = .next { s.popEvent.applyReset with rst := false } :=
  (step_of_nextEvent hn).trans (congrArg _ (State.releaseRst_of_rst (s := s.popEvent) hr))

end Held

/-- Settles O55: the assertion sets RST and nothing else; under it a turn, a write and a read leave the block as it is, and the
release is `applyReset`, whose PEND stands for the free value. -/
theorem rstHoldsThenResetsTheBlock : Obligations.RstHoldsThenResetsTheBlock := by
  refine fun s => ⟨fun hn => ?asserted, fun hr => ⟨fun hn => ?turn, fun off v h4 h hn => ?write, fun off h4 h hn => ?read,
    fun hn => ?release⟩⟩
  case asserted => exact step_of_nextEvent hn
  case turn => exact step_turn_of_rst hr hn
  case write => exact step_write_of_rst hr h4 h hn
  case read => exact ⟨_, step_read_of_rst hr h4 h hn⟩
  case release => exact ⟨_, step_rstRelease_of_rst hr hn⟩

/-! ### SYS.SRST -/

/-- A reset keeps the reset input, so from a released RST an assertion and a release come to the reset alone. -/
theorem releaseRst_assertRst {s : State} (hr : s.rst = false) : s.assertRst.releaseRst = s.applyReset := by
  rw [State.releaseRst_of_rst (State.assertRst_rst s), ← hr]
  rfl

/-- Settles O56: SYS.SRST's rule is `applyReset`; written under BUSY = 1 it takes `latch .overrun` as every write to CMD does. -/
theorem sysSrstEqualsRstRelease : Obligations.SysSrstEqualsRstRelease := by
  refine ⟨fun s hr => ?reset, fun s hr hb he hn => ?overrun⟩
  case reset => exact congrArg _ (releaseRst_assertRst hr).symm
  case overrun =>
    have hstep := step_write_reg (r := .cmd) hr hn rfl (by decide) rfl
    rw [regWrite_of_busy (s := s.popEvent) hb (.inl rfl), State.latch_of_not_err (s := s.popEvent) he] at hstep
    exact hstep

end Sys2Proof.Machine
end
